-- ==== Sys2Proof/Word.lean ====
section
/-! DEFINITION. The machine's bit-vector types: the 8-bit program byte, the 64-bit register word and
the 3-bit output value. -/

namespace Sys2Proof

/-- A program byte, 0 to 255 (10_state.md R24, decision D3). -/
abbrev Byte := BitVec 8

/-- A register value, a natural below 2^W with W = 64 (10_state.md R12, decision D1). -/
abbrev Word := BitVec 64

/-- A value of the Output Trace, 0 to 7 (10_state.md R25). -/
abbrev OutVal := BitVec 3

end Sys2Proof
end

