-- ==== Sys2Proof/Syntax.lean ====
section
/-! DEFINITION. The instructions: one constructor per row of spec/opcode_table.json, each holding its
operand byte, and the operand addressing mode of each (30_encoding.md R41 to R44). -/

namespace Sys2Proof

/-- The closed set of eight instructions (00_scope.md R2, 30_encoding.md R49). The operand byte is
kept whole: every value 0 to 255 can stand in it (R42), and how it is read is the opcode's affair. -/
inductive Instr where
  /-- opcode 0: `A := A / 2^combo(k)` (41_division.md R71) -/
  | adv (k : Byte)
  /-- opcode 1: `B := B XOR lit` (42_bitwise.md R74) -/
  | bxl (lit : Byte)
  /-- opcode 2: `B := combo(k) mod 8` (42_bitwise.md R75) -/
  | bst (k : Byte)
  /-- opcode 3: jump to `lit` if A is not zero (43_control.md R77) -/
  | jnz (lit : Byte)
  /-- opcode 4: `B := B XOR C`, operand present but unused (42_bitwise.md R76) -/
  | bxc (unused : Byte)
  /-- opcode 5: emit `combo(k) mod 8` (44_output.md R80) -/
  | out (k : Byte)
  /-- opcode 6: `B := A / 2^combo(k)` (41_division.md R72) -/
  | bdv (k : Byte)
  /-- opcode 7: `C := A / 2^combo(k)` (41_division.md R73) -/
  | cdv (k : Byte)
deriving DecidableEq, Repr

/-- The operand addressing modes (30_encoding.md R44). -/
inductive Mode where
  | combo
  | literal
  | ignored
deriving DecidableEq, Repr

/-- "Operand addressing mode is a per-instruction property, not a per-operand tag" (30_encoding.md R44). -/
def Instr.mode : Instr → Mode
  | .adv _ => .combo
  | .bxl _ => .literal
  | .bst _ => .combo
  | .jnz _ => .literal
  | .bxc _ => .ignored
  | .out _ => .combo
  | .bdv _ => .combo
  | .cdv _ => .combo

/-- The operand byte (30_encoding.md R42). -/
def Instr.operand : Instr → Byte
  | .adv k => k
  | .bxl lit => lit
  | .bst k => k
  | .jnz lit => lit
  | .bxc unused => unused
  | .out k => k
  | .bdv k => k
  | .cdv k => k

end Sys2Proof
end

