-- ==== Sys2Proof/WellFormed.lean ====
section
/-! DEFINITION. Which instructions have a legal operand: the "legal values" column of 30_encoding.md
R42. An instruction that is not well formed still decodes, and its step faults (R51). -/

namespace Sys2Proof

/-- The legal operands of a mode (30_encoding.md R42): combo 0 to 6, literal and ignored 0 to 255. -/
def Mode.legal (m : Mode) (operand : Byte) : Bool :=
  match m with
  | .combo => operand.toNat ≤ 6
  | .literal => true
  | .ignored => true

/-- The instruction's operand is legal in its mode. -/
def Instr.wellFormed (i : Instr) : Bool := i.mode.legal i.operand

end Sys2Proof
end

