-- ==== Sys2Proof/Decode.lean ====
section
/-! DEFINITION. The decoder (total on any bytes, rejecting by name), the encoder, and the 16-bit
notation of spec/opcode_table.json (30_encoding.md R41 to R43, R49 to R52). -/

namespace Sys2Proof

/-- Why bytes are no instruction. -/
inductive DecodeReject where
  /-- fewer than two bytes are left, so there is no pair (30_encoding.md R41) -/
  | pairUnavailable
  /-- an opcode byte 8 to 255 (30_encoding.md R49, R51) -/
  | invalidOpcode (opcode : Byte)
deriving DecidableEq, Repr

/-- The dispatch router's decoding of one pair (30_encoding.md R49): the opcode byte alone selects one
of eight handlers, the operand byte is handed on as it is. -/
def decodePair (opcode operand : Byte) : Except DecodeReject Instr :=
  match opcode.toNat with
  | 0 => .ok (.adv operand)
  | 1 => .ok (.bxl operand)
  | 2 => .ok (.bst operand)
  | 3 => .ok (.jnz operand)
  | 4 => .ok (.bxc operand)
  | 5 => .ok (.out operand)
  | 6 => .ok (.bdv operand)
  | 7 => .ok (.cdv operand)
  | _ => .error (.invalidOpcode opcode)

/-- Decode the first instruction of a byte sequence and give back the bytes after it; every
instruction is two bytes (30_encoding.md R41, R52). -/
def decode : List Byte → Except DecodeReject (Instr × List Byte)
  | opcode :: operand :: rest => (decodePair opcode operand).map (fun i => (i, rest))
  | [_] => .error .pairUnavailable
  | [] => .error .pairUnavailable

/-- The opcode byte of each instruction (30_encoding.md R50). -/
def opcodeByte : Instr → Byte
  | .adv _ => 0
  | .bxl _ => 1
  | .bst _ => 2
  | .jnz _ => 3
  | .bxc _ => 4
  | .out _ => 5
  | .bdv _ => 6
  | .cdv _ => 7

/-- The two bytes of an instruction, the opcode at the lower index (20_memory.md R31, 30_encoding.md R41). -/
def encode (i : Instr) : List Byte := [opcodeByte i, i.operand]

/-- The bytes of a sequence of instructions, one pair after another (30_encoding.md R41). -/
def encodeProgram : List Instr → List Byte
  | [] => []
  | i :: is => encode i ++ encodeProgram is

/-- The 16-bit notation `W16 = opcode * 256 + operand` (30_encoding.md R43). -/
def tableWord (i : Instr) : Nat := (opcodeByte i).toNat * 256 + i.operand.toNat

/-- The two bytes that the low `nbits` bits of a table word stand for, in the order of the Program
Store: the opcode is `W16[15:8]`, the operand `W16[7:0]` (30_encoding.md R43; notes/assumptions/12.md). -/
def tableWordBytes (nbits w : Nat) : List Byte :=
  [BitVec.ofNat 8 (w % 2 ^ nbits / 256), BitVec.ofNat 8 (w % 2 ^ nbits)]

/-- The instruction the decoder reads from a word of spec/opcode_table.json. -/
def decodeTableWord (nbits w : Nat) : Option Instr :=
  match decode (tableWordBytes nbits w) with
  | .ok (i, _) => some i
  | .error _ => none

end Sys2Proof
end

