-- ==== Sys2Proof/Config.lean ====
section
/-! DEFINITION. The parameters of the core (00_scope.md R6): the register width and the two named
policies, each with every value the spec gives it and the spec's default. -/

namespace Sys2Proof

/-- `W`, the register width in bits (00_scope.md R6, decision D1). -/
abbrev regWidth : Nat := 64

/-- `ODD_TARGET_POLICY` (43_control.md R79, decision D8): what a taken jump to an odd target does. -/
inductive OddTargetPolicy where
  /-- the jump raises `MisalignedTarget` (the default) -/
  | fault
  /-- the jump is taken and later fetches pair the bytes from the odd index on -/
  | execute
deriving DecidableEq, Repr

/-- `LARGE_SHIFT_POLICY` (41_division.md R69, decision D9): what a shift count of `W` or more does. -/
inductive LargeShiftPolicy where
  /-- the result is the exact quotient, 0 (the default) -/
  | zero
  /-- the division raises `ShiftOverflow` -/
  | fault
deriving DecidableEq, Repr

/-- The two policy parameters a run depends on beside what is loaded (40_execution_engine.md R68). -/
structure Policies where
  oddTarget : OddTargetPolicy
  largeShift : LargeShiftPolicy
deriving DecidableEq, Repr

/-- The defaults of 00_scope.md R6. -/
def defaultPolicies : Policies := { oddTarget := .fault, largeShift := .zero }

end Sys2Proof
end

