-- ==== Sys2Proof/Machine/State.lean ====
section
/-! DEFINITION. The whole state of one machine instance (10_state.md): the Program Store and its
length, the three registers, the instruction pointer, the machine status, the fault record and the
Output Trace, with the policies the instance was loaded under; and the state after reset. -/

namespace Sys2Proof.Machine

/-- The names of the three registers (10_state.md R12). -/
inductive Reg where
  | a
  | b
  | c
deriving DecidableEq, Repr

/-- The machine status (10_state.md R20, 90_conflicts.md C1). -/
inductive MachineStatus where
  | running
  /-- "terminal; no instruction resumes it" -/
  | halted
  /-- terminal, after the invalid-program fault -/
  | faulted
deriving DecidableEq, Repr

/-- The fault reasons of 60_exceptions.md R83. -/
inductive FaultReason where
  /-- combo operand 7, or 8 to 255 -/
  | invalidCombo
  /-- opcode byte 8 to 255 -/
  | invalidOpcode
  /-- taken JNZ with an odd target under `ODD_TARGET_POLICY = fault` -/
  | misalignedTarget
  /-- combo shift count of `W` or more under `LARGE_SHIFT_POLICY = fault` -/
  | shiftOverflow
deriving DecidableEq, Repr

/-- What a faulting step latches (10_state.md R21): the reason and the `ip` of the faulting pair. -/
structure FaultRecord where
  reason : FaultReason
  ip : Nat
deriving DecidableEq, Repr

/-- The state of one machine instance: the tuple `(P, N, x[A], x[B], x[C], ip, status, fault, T)` of
10_state.md, and the policies it was loaded under (notes/assumptions/3.md). -/
structure State where
  /-- `P`: the listed cells of the Program Store (R24; notes/assumptions/6.md) -/
  mem : List Host.Cell
  /-- `N`: the number of bytes of the Program Store (R24) -/
  size : Nat
  /-- `x[A]` (R12) -/
  a : Word
  /-- `x[B]` (R12) -/
  b : Word
  /-- `x[C]` (R12) -/
  c : Word
  /-- the instruction pointer, an absolute byte offset into the Program Store (R17) -/
  ip : Nat
  /-- Running, Halted or Faulted (R20) -/
  status : MachineStatus
  /-- the fault record (R21) -/
  fault : Option FaultRecord
  /-- `T`: the Output Trace, oldest value first (R25) -/
  trace : List OutVal
  /-- the values of `ODD_TARGET_POLICY` and `LARGE_SHIFT_POLICY` (00_scope.md R6) -/
  policies : Policies
deriving DecidableEq, Repr

/-- Why a step can stop without a next state. The machine's own fault is not here: it is a next state
with status Faulted (60_exceptions.md R84). -/
inductive Fault where
  /-- A read of an index the Program Store does not have. Raised by `memRead` alone, for `addr >= N`,
  where the spec leaves `MemRead` undefined (20_memory.md R30). Safe; no step raises it, since the
  fetch reads only when `ip + 1 < N`. -/
  | outsideStore (addr : Nat)
deriving DecidableEq, Repr

/-- Why an instruction has no meaning. -/
inductive Refusal where
  /-- An instruction without a meaning yet, by its mnemonic. Raised by nothing: every arm of `exec`
  has its meaning. Safe. -/
  | notModelled (mnemonic : String)
deriving DecidableEq, Repr

/-- The state right after reset with nothing loaded: every value of 10_state.md R27 that does not come
from a load (`ip` 0, Running, no fault, empty trace, the default policies), an empty Program Store and
zero registers (notes/assumptions/4.md). -/
def State.reset : State :=
  { mem := []
    size := 0
    a := 0
    b := 0
    c := 0
    ip := 0
    status := .running
    fault := none
    trace := []
    policies := defaultPolicies }

end Sys2Proof.Machine
end

