-- ==== Sys2Proof/Machine/Ops.lean ====
section
/-! DEFINITION. The shared operations: the Program Store's reads (and the writes that only a load
makes), the register bank's ports, the commit of a step, taking the fault, and halting. -/

namespace Sys2Proof.Machine

/-! ### The Program Store (20_memory.md) -/

/-- What an index below the length reads as where no cell is listed (notes/assumptions/6.md): the
listed cells are the nonzero bytes of the loaded program. -/
def memDefault : Byte := 0

/-- The canonical form: indexes strictly rising, no cell equal to what an unlisted index reads as. -/
abbrev memWf (m : List Host.Cell) : Prop :=
  m.Pairwise (fun x y => x.1 < y.1) ∧ ∀ x ∈ m, x.2 ≠ memDefault

/-- The canonical form, and every listed index is one of the store's `0 .. N-1` (20_memory.md R29). -/
abbrev storeWf (s : State) : Prop := memWf s.mem ∧ ∀ x ∈ s.mem, x.1 < s.size

/-- The byte the cells give for an index. -/
def memByte : List Host.Cell → Nat → Byte
  | [], _ => memDefault
  | x :: m, addr => if x.1 = addr then x.2 else memByte m addr

/-- One cell put in front, unless it holds what an unlisted index reads as. -/
def memCons (addr : Nat) (v : Byte) (m : List Host.Cell) : List Host.Cell :=
  if v = memDefault then m else (addr, v) :: m

/-- The cells with one byte replaced, in the canonical form. No instruction does this (00_scope.md R8,
20_memory.md R39): only the placing of an instruction by `placePair`, which stands for a load. -/
def memWrite : List Host.Cell → Nat → Byte → List Host.Cell
  | [], addr, v => memCons addr v []
  | x :: m, addr, v =>
    if addr < x.1 then memCons addr v (x :: m)
    else if addr = x.1 then memCons addr v m
    else x :: memWrite m addr v

/-- The cells of a byte sequence whose first byte has the index `start` (10_state.md R24). -/
def memOfBytes : Nat → List Byte → List Host.Cell
  | _, [] => []
  | start, v :: vs => memCons start v (memOfBytes (start + 1) vs)

/-- `MemRead(addr, 1)`, defined for `addr < N` only (20_memory.md R30). -/
def memRead (s : State) (addr : Nat) : Except Fault Byte :=
  if addr < s.size then .ok (memByte s.mem addr) else .error (.outsideStore addr)

/-- The fetch's `available` bit is off: no full pair at `ip` (40_execution_engine.md R61). -/
def pairUnavailable (s : State) : Bool := s.size ≤ s.ip + 1

/-! ### The register bank (10_state.md R12 to R15) -/

/-- The fixed read taps (10_state.md R14). -/
def readReg (s : State) : Reg → Word
  | .a => s.a
  | .b => s.b
  | .c => s.c

/-- The indexed read port: index 4 is A, 5 is B, 6 is C (10_state.md R14). -/
def indexedReg (index : Nat) : Option Reg :=
  match index with
  | 4 => some .a
  | 5 => some .b
  | 6 => some .c
  | _ => none

/-- The write port `(we, sel, data)`: `none` is `we = 0` (10_state.md R15). -/
def writePort (s : State) : Option (Reg × Word) → State
  | none => s
  | some (.a, v) => { s with a := v }
  | some (.b, v) => { s with b := v }
  | some (.c, v) => { s with c := v }

/-! ### Ending a step -/

/-- What a handler hands back (40_execution_engine.md R60): `(wr, next_ip, em)`. -/
structure HandlerResult where
  wr : Option (Reg × Word)
  nextIp : Nat
  em : Option OutVal
deriving DecidableEq, Repr

/-- The next `ip` of every instruction but a taken jump: "always advanced in units of 2" (10_state.md R17). -/
def nextPair (ip : Nat) : Nat := ip + 2

/-- A handler that writes one register and goes on to the next pair. -/
def writeResult (s : State) (r : Reg) (v : Word) : HandlerResult :=
  { wr := some (r, v), nextIp := nextPair s.ip, em := none }

/-- `emit(v)`: append to the end of the Output Trace (00_scope.md R8). -/
def appendOut (t : List OutVal) : Option OutVal → List OutVal
  | none => t
  | some v => t ++ [v]

/-- The commit at the end of a step that neither halts nor faults: the register write, `ip`, and the
emit, all at once (40_execution_engine.md R62). -/
def commit (s : State) (h : HandlerResult) : State :=
  { writePort s h.wr with ip := h.nextIp, trace := appendOut s.trace h.em }

/-- Taking the invalid-program fault (60_exceptions.md R84): status Faulted, the fault record
`(reason, ip)`, nothing of the instruction committed. There is no return from it (R87). -/
def raiseFault (s : State) (reason : FaultReason) : State :=
  { s with status := .faulted, fault := some { reason := reason, ip := s.ip } }

/-- The halting step: `status <- Halted` and nothing else (40_execution_engine.md R61). -/
def haltStep (s : State) : State := { s with status := .halted }

/-- The end of a step that dispatched: commit what the handler gives, or take the fault it raises. -/
def finish (s : State) : Except FaultReason HandlerResult → Host.Outcome State Fault Refusal
  | .ok h => .next (commit s h)
  | .error reason => .next (raiseFault s reason)

end Sys2Proof.Machine
end

