-- ==== Sys2Proof/Machine/Operands.lean ====
section
/-! DEFINITION. The operand forms: literal, combo (the operand resolver) and the law of the three
divisions (30_encoding.md R44 to R48, 41_division.md R69). -/

namespace Sys2Proof.Machine

/-- `zext_W(v)` of a byte (00_scope.md R7). -/
def zextW (v : Byte) : Word := v.setWidth 64

/-- `v[2:0]`, that is `v mod 8` (00_scope.md R7). -/
def low3 (v : Word) : OutVal := v.setWidth 3

/-- `zext_W(v)` of a 3-bit value. -/
def zext3 (v : OutVal) : Word := v.setWidth 64

/-- Literal mode: "the operand's numeric value is used unchanged" (30_encoding.md R45). -/
def literal (operand : Byte) : Word := zextW operand

/-- The resolver's `valid` output (30_encoding.md R47). -/
def comboValid (operand : Byte) : Bool := operand.toNat ≤ 6

/-- The resolver's `value` output (30_encoding.md R47): the indexed read port for 4 to 6, otherwise
`zext_W(operand[1:0])`; it is looked at only where `valid` is 1. -/
def comboValue (s : State) (operand : Byte) : Word :=
  match indexedReg operand.toNat with
  | some r => readReg s r
  | none => (operand.setWidth 2).setWidth 64

/-- Combo mode, the operand resolver (30_encoding.md R46, R47): 0 to 3 are themselves, 4 to 6 the
registers A, B, C, and 7 and above raise `InvalidCombo`. -/
def combo (s : State) (operand : Byte) : Except FaultReason Word :=
  if comboValid operand then .ok (comboValue s operand) else .error .invalidCombo

/-- A shift count of `W` or more (41_division.md R69, decision D9): the exact quotient is 0; or the
fault. -/
def largeShift : LargeShiftPolicy → Except FaultReason Word
  | .zero => .ok 0
  | .fault => .error .shiftOverflow

/-- The shared law of the divisions (41_division.md R69): `x / 2^sh`, written as the right shift it
equals; a count of `W` or more gives 0 or raises `ShiftOverflow`, as `LARGE_SHIFT_POLICY` says. -/
def shr (policy : LargeShiftPolicy) (x sh : Word) : Except FaultReason Word :=
  if sh.toNat < regWidth then .ok (x >>> sh.toNat) else largeShift policy

/-- The quotient of a division handler: resolve the operand, then shift A (41_division.md R71 to R73,
in the order of checks of 60_exceptions.md R85). -/
def divideA (s : State) (operand : Byte) : Except FaultReason Word :=
  match combo s operand with
  | .ok sh => shr s.policies.largeShift s.a sh
  | .error reason => .error reason

end Sys2Proof.Machine
end

