-- ==== Sys2Proof/Machine/Bitwise.lean ====
section
/-! DEFINITION. The bitwise handlers BXL, BST, BXC, which all write B (42_bitwise.md). -/

namespace Sys2Proof.Machine

/-- The BXL handler; any literal is legal (42_bitwise.md R74). -/
def bxlHandler (lit : Byte) (s : State) : Except FaultReason HandlerResult :=
  .ok (writeResult s .b (s.b ^^^ literal lit))

/-- BXL: `B := B XOR lit` (42_bitwise.md R74). -/
def execBxl (lit : Byte) (s : State) : Host.Outcome State Fault Refusal := finish s (bxlHandler lit s)

/-- The BST handler (42_bitwise.md R75). -/
def bstHandler (k : Byte) (s : State) : Except FaultReason HandlerResult :=
  (combo s k).map (fun v => writeResult s .b (zext3 (low3 v)))

/-- BST: `B := combo(k) mod 8` (42_bitwise.md R75). -/
def execBst (k : Byte) (s : State) : Host.Outcome State Fault Refusal := finish s (bstHandler k s)

/-- The BXC handler, which the operand byte does not reach (42_bitwise.md R76, 30_encoding.md R48). -/
def bxcHandler (s : State) : Except FaultReason HandlerResult :=
  .ok (writeResult s .b (s.b ^^^ s.c))

/-- BXC: `B := B XOR C`, operand present but unused (42_bitwise.md R76). -/
def execBxc (_unused : Byte) (s : State) : Host.Outcome State Fault Refusal := finish s (bxcHandler s)

end Sys2Proof.Machine
end

