-- ==== Sys2Proof/Machine/Flags.lean ====
section
/-! DEFINITION. The core "has no status flags, condition codes or predicates" (10_state.md R22): no
flag is held or computed. What stands in their place is the one test that JNZ makes. -/

namespace Sys2Proof.Machine

/-- JNZ tests `x[A] == 0` directly (10_state.md R22, 43_control.md R77). -/
def aIsZero (s : State) : Bool := s.a == 0

end Sys2Proof.Machine
end

