-- ==== Sys2Proof/Machine/Control.lean ====
section
/-! DEFINITION. JNZ, the only control transfer (43_control.md). -/

namespace Sys2Proof.Machine

/-- The next `ip` of a JNZ (43_control.md R77, R79): fall through when A is zero; fall through when the
literal is the JNZ's own `ip` (the self-jump guard, R78); otherwise the literal, an absolute byte
offset, with an odd target treated as `ODD_TARGET_POLICY` says. -/
def jumpIp (s : State) (lit : Byte) : Except FaultReason Nat :=
  if aIsZero s then .ok (nextPair s.ip)
  else if (literal lit).toNat = s.ip then .ok (nextPair s.ip)
  else if (literal lit).toNat % 2 = 1 ∧ s.policies.oddTarget = .fault then .error .misalignedTarget
  else .ok (literal lit).toNat

/-- The JNZ handler: no register write and no emit, only the next `ip` (43_control.md R77). -/
def jnzHandler (lit : Byte) (s : State) : Except FaultReason HandlerResult :=
  (jumpIp s lit).map (fun target => { wr := none, nextIp := target, em := none })

/-- JNZ: jump if A is not zero, with the self-jump guard (43_control.md R77). -/
def execJnz (lit : Byte) (s : State) : Host.Outcome State Fault Refusal := finish s (jnzHandler lit s)

end Sys2Proof.Machine
end

