-- ==== Sys2Proof/Machine/Division.lean ====
section
/-! DEFINITION. The division handlers ADV, BDV, CDV (41_division.md). -/

namespace Sys2Proof.Machine

/-- The ADV handler: `q <- shr(x[A], combo(k))`, written to A (41_division.md R71). -/
def advHandler (k : Byte) (s : State) : Except FaultReason HandlerResult :=
  (divideA s k).map (writeResult s .a)

/-- ADV: `A := A / 2^combo(k)` (41_division.md R71). -/
def execAdv (k : Byte) (s : State) : Host.Outcome State Fault Refusal := finish s (advHandler k s)

/-- The BDV handler: `q <- shr(x[A], combo(k))`, written to B; A is not written (41_division.md R72). -/
def bdvHandler (k : Byte) (s : State) : Except FaultReason HandlerResult :=
  (divideA s k).map (writeResult s .b)

/-- BDV: `B := A / 2^combo(k)` (41_division.md R72). -/
def execBdv (k : Byte) (s : State) : Host.Outcome State Fault Refusal := finish s (bdvHandler k s)

/-- The CDV handler: `q <- shr(x[A], combo(k))`, written to C; A is not written (41_division.md R73). -/
def cdvHandler (k : Byte) (s : State) : Except FaultReason HandlerResult :=
  (divideA s k).map (writeResult s .c)

/-- CDV: `C := A / 2^combo(k)` (41_division.md R73). -/
def execCdv (k : Byte) (s : State) : Host.Outcome State Fault Refusal := finish s (cdvHandler k s)

end Sys2Proof.Machine
end

