-- ==== Sys2Proof/Machine/Output.lean ====
section
/-! DEFINITION. OUT, the only instruction that appends to the Output Trace (44_output.md). -/

namespace Sys2Proof.Machine

/-- The OUT handler: no register is written (44_output.md R80). -/
def outHandler (k : Byte) (s : State) : Except FaultReason HandlerResult :=
  (combo s k).map (fun v => { wr := none, nextIp := nextPair s.ip, em := some (low3 v) })

/-- OUT: emit `combo(k) mod 8` (44_output.md R80). -/
def execOut (k : Byte) (s : State) : Host.Outcome State Fault Refusal := finish s (outHandler k s)

end Sys2Proof.Machine
end

