-- ==== Sys2Proof/Machine/Dispatch.lean ====
section
/-! DEFINITION. The dispatch to the eight handlers, "then matched exhaustively" (30_encoding.md R49). -/

namespace Sys2Proof.Machine

def exec (i : Instr) (s : State) : Host.Outcome State Fault Refusal :=
  match i with
  | .adv k => Sys2Proof.Machine.execAdv k s
  | .bxl lit => Sys2Proof.Machine.execBxl lit s
  | .bst k => Sys2Proof.Machine.execBst k s
  | .jnz lit => Sys2Proof.Machine.execJnz lit s
  | .bxc unused => Sys2Proof.Machine.execBxc unused s
  | .out k => Sys2Proof.Machine.execOut k s
  | .bdv k => Sys2Proof.Machine.execBdv k s
  | .cdv k => Sys2Proof.Machine.execCdv k s

end Sys2Proof.Machine
end

