-- ==== Sys2Proof/Machine/Engine.lean ====
section
/-! DEFINITION. The execution engine: the instruction-pointer state machine that fetches a pair, halts
when none is available, and hands the pair to the dispatch (40_execution_engine.md R60). -/

namespace Sys2Proof.Machine

/-- A fetched pair goes through the router (30_encoding.md R49): to its handler, or to
`Fault(InvalidOpcode)`. -/
def dispatchPair (s : State) (opcode operand : Byte) : Host.Outcome State Fault Refusal :=
  match decodePair opcode operand with
  | .ok i => exec i s
  | .error _ => .next (raiseFault s .invalidOpcode)

/-- The two single-byte reads of the fetch, opcode first (20_memory.md R30), then the dispatch. -/
def fetchAndDispatch (s : State) : Host.Outcome State Fault Refusal :=
  match memRead s s.ip with
  | .error f => .fault f
  | .ok opcode =>
    match memRead s (s.ip + 1) with
    | .error f => .fault f
    | .ok operand => dispatchPair s opcode operand

/-- One step of a Running instance (40_execution_engine.md R60, R61): availability decides first. -/
def runningStep (s : State) : Host.Outcome State Fault Refusal :=
  if pairUnavailable s then .next (haltStep s) else fetchAndDispatch s

/-- One step (40_execution_engine.md R60, R64): Halted and Faulted are terminal, a step requested there
changes nothing. -/
def engineStep (s : State) : Host.Outcome State Fault Refusal :=
  match s.status with
  | .running => runningStep s
  | .halted => .next s
  | .faulted => .next s

/-- An instance that has the two bytes of `bytes` at `ip`, as a load of a program holding them there
would leave it: the store long enough for the pair, the status Running and no fault record, so that the
next step fetches the pair (notes/assumptions/5.md). -/
def placePair (s : State) (opcode operand : Byte) : State :=
  { s with
    mem := memWrite (memWrite s.mem s.ip opcode) (s.ip + 1) operand
    size := max s.size (s.ip + 2)
    status := .running
    fault := none }

/-- The pair that a table word stands for, placed at `ip`. -/
def placeWord (s : State) (nbits w : Nat) : State :=
  match tableWordBytes nbits w with
  | opcode :: operand :: _ => placePair s opcode operand
  | [_] => s
  | [] => s

end Sys2Proof.Machine
end

