-- ==== Sys2Proof/Machine/Step.lean ====
section
/-! DEFINITION. The step of the machine, and a state with one instruction placed where the step fetches. -/

namespace Sys2Proof.Machine

/-- One step of the machine (40_execution_engine.md R60). -/
def step : State → Host.Outcome State Fault Refusal := engineStep

/-- `s` with the instruction of a table word stored at `ip`, ready to be the next one to run. -/
def State.withFetchWord (s : State) (nbits w : Nat) : State := placeWord s nbits w

end Sys2Proof.Machine
end

