-- ==== Sys2Proof/Machine/Ports.lean ====
section
/-! DEFINITION. The observation ports of the transaction-level interface (10_state.md R28) and their
codes (10_state.md R20, 60_exceptions.md R83). -/

namespace Sys2Proof.Machine

/-- Status codes: Running 0, Halted 1, Faulted 2 (10_state.md R20). -/
def statusCode : MachineStatus → BitVec 2
  | .running => 0
  | .halted => 1
  | .faulted => 2

/-- Fault reason codes; 0 means no fault (60_exceptions.md R83). -/
def faultCode : Option FaultRecord → BitVec 3
  | none => 0
  | some f =>
    match f.reason with
    | .invalidCombo => 1
    | .invalidOpcode => 2
    | .misalignedTarget => 3
    | .shiftOverflow => 4

/-- The value the step from `before` to `after` appended to the Output Trace, if it appended one. -/
def appended (before after : State) : Option OutVal := (after.trace.drop before.trace.length).head?

/-- The values on the output ports after a step (10_state.md R28). -/
structure Ports where
  status : BitVec 2
  faultReason : BitVec 3
  /-- "meaningful only when status = Faulted": `none` when there is no fault record -/
  faultIp : Option Nat
  outValid : Bool
  outValue : OutVal
  trace : List OutVal
  regA : Word
  regB : Word
  regC : Word
  ip : Nat
deriving DecidableEq, Repr

/-- The ports after the step from `before` to `after`; `outValid` and `outValue` are that step's
(10_state.md R28), all others are functions of `after` alone. -/
def portsAfter (before after : State) : Ports :=
  { status := statusCode after.status
    faultReason := faultCode after.fault
    faultIp := after.fault.map FaultRecord.ip
    outValid := (appended before after).isSome
    outValue := (appended before after).getD 0
    trace := after.trace
    regA := after.a
    regB := after.b
    regC := after.c
    ip := after.ip }

end Sys2Proof.Machine
end

