-- ==== Sys2Proof/Machine/Load.lean ====
section
/-! DEFINITION. Load, the only reset of the core (70_reset_and_hazards.md R96, R97), and the load errors
(30_encoding.md R56, R57). -/

namespace Sys2Proof.Machine

/-- The load errors, distinct from the execution fault (30_encoding.md R57). -/
inductive LoadError where
  | missingRegisterLine (r : Reg)
  | wrongRegisterLabel (r : Reg)
  | missingBlankLine
  | missingProgramLine
  | nonNumericValue
  /-- a register value of 2^W or more, or a program value of 256 or more (R56) -/
  | valueOutOfRange
deriving DecidableEq, Repr

/-- What load takes (70_reset_and_hazards.md R96): the program's values, its length being the length of
the list, and the three initial register values, all natural numbers before the range check. -/
structure LoadArgs where
  program : List Nat
  a0 : Nat
  b0 : Nat
  c0 : Nat
deriving DecidableEq, Repr

/-- The range check of load: every program value below 256, every register value below 2^W (R96). -/
def LoadArgs.inRange (x : LoadArgs) : Bool :=
  x.program.all (fun v => v < 256) && x.a0 < 2 ^ regWidth && x.b0 < 2 ^ regWidth && x.c0 < 2 ^ regWidth

/-- The instance an accepted load builds: every piece of state at its value of 10_state.md R27. -/
def loadedState (policies : Policies) (x : LoadArgs) : State :=
  { mem := memOfBytes 0 (x.program.map (BitVec.ofNat 8))
    size := x.program.length
    a := BitVec.ofNat 64 x.a0
    b := BitVec.ofNat 64 x.b0
    c := BitVec.ofNat 64 x.c0
    ip := 0
    status := .running
    fault := none
    trace := []
    policies := policies }

/-- Load: refused with `ValueOutOfRange` when a value is out of range, and then no instance exists
(70_reset_and_hazards.md R96); any earlier state is discarded, since none is taken. -/
def load (policies : Policies) (x : LoadArgs) : Except LoadError State :=
  if x.inRange then .ok (loadedState policies x) else .error .valueOutOfRange

end Sys2Proof.Machine
end

