-- ==== Sys2Proof/Machine/Text.lean ====
section
/-! DEFINITION. The text forms of the host boundary: the program representation that load takes, the
rendering of the Output Trace, and the assembly notation (30_encoding.md R53 to R59). -/

namespace Sys2Proof.Machine

/-- A text, character by character. -/
abbrev Text := List Char

/-- The line end, LF (30_encoding.md R55). -/
def lineEnd : Char := '\n'

/-- The pieces of a text between the occurrences of a character: one more piece than occurrences. -/
def splitText (sep : Char) : Text → List Text
  | [] => [[]]
  | x :: xs =>
    if x = sep then [] :: splitText sep xs
    else
      match splitText sep xs with
      | [] => [[x]]
      | piece :: pieces => (x :: piece) :: pieces

/-- The text before and after the first occurrence of a character. -/
def breakText (sep : Char) : Text → Option (Text × Text)
  | [] => none
  | x :: xs => if x = sep then some ([], xs) else (breakText sep xs).map (fun p => (x :: p.1, p.2))

/-- The rest of a text after a fixed beginning. -/
def dropStart : Text → Text → Option Text
  | [], xs => some xs
  | _ :: _, [] => none
  | y :: ys, x :: xs => if x = y then dropStart ys xs else none

/-! ### Numbers (30_encoding.md R55) -/

/-- The decimal digit of a value 0 to 9. -/
def digitChar (n : Nat) : Char := Char.ofNat (48 + n)

/-- The value of an ASCII digit `0` to `9`. -/
def digitValue (ch : Char) : Option Nat :=
  if 48 ≤ ch.toNat ∧ ch.toNat ≤ 57 then some (ch.toNat - 48) else none

/-- Read digits after a number already read. -/
def readDigits : Nat → Text → Option Nat
  | n, [] => some n
  | n, ch :: rest =>
    match digitValue ch with
    | some d => readDigits (n * 10 + d) rest
    | none => none

/-- A number: one or more ASCII digits, no sign, leading zeros allowed, read as decimal (R55). -/
def readNumber : Text → Except LoadError Nat
  | [] => .error .nonNumericValue
  | ch :: rest =>
    match readDigits 0 (ch :: rest) with
    | some n => .ok n
    | none => .error .nonNumericValue

/-- A list of numbers, each read as `readNumber` reads it. -/
def readNumbers : List Text → Except LoadError (List Nat)
  | [] => .ok []
  | piece :: pieces =>
    match readNumber piece with
    | .error e => .error e
    | .ok n =>
      match readNumbers pieces with
      | .error e => .error e
      | .ok ns => .ok (n :: ns)

/-! ### The program representation (30_encoding.md R54 to R57) -/

/-- The label of a register in the text (30_encoding.md R54). -/
def regLabel : Reg → Char
  | .a => 'A'
  | .b => 'B'
  | .c => 'C'

/-- "Register " -/
def registerKeyword : Text := ['R', 'e', 'g', 'i', 's', 't', 'e', 'r', ' ']

/-- "Program: " -/
def programKeyword : Text := ['P', 'r', 'o', 'g', 'r', 'a', 'm', ':', ' ']

/-- A register line `Register <r>: <number>` (R54). Which class a malformed line falls in is
notes/assumptions/13.md's. -/
def readRegisterLine (r : Reg) (line : Text) : Except LoadError Nat :=
  match dropStart registerKeyword line with
  | none => .error (.missingRegisterLine r)
  | some rest =>
    match breakText ':' rest with
    | none => .error (.missingRegisterLine r)
    | some (label, value) =>
      if label = [regLabel r] then
        match dropStart [' '] value with
        | some number => readNumber number
        | none => .error .nonNumericValue
      else .error (.wrongRegisterLabel r)

/-- The first line is the register line of `r`; the lines after it are given back. -/
def takeRegister (r : Reg) : List Text → Except LoadError (Nat × List Text)
  | [] => .error (.missingRegisterLine r)
  | line :: rest => (readRegisterLine r line).map (fun n => (n, rest))

/-- The first line is the blank separator line, ended by its LF: a line follows it (R54, R55; a text that
ends before that LF: notes/assumptions/13.md). -/
def takeBlank : List Text → Except LoadError (List Text)
  | [] :: next :: rest => .ok (next :: rest)
  | [[]] => .error .missingBlankLine
  | (_ :: _) :: _ => .error .missingBlankLine
  | [] => .error .missingBlankLine

/-- The last line is the program line `Program: <b0>,<b1>,...`; after it at most one LF may stand (R55). -/
def takeProgram : List Text → Except LoadError (List Nat)
  | [] => .error .missingProgramLine
  | line :: rest =>
    match dropStart programKeyword line with
    | none => .error .missingProgramLine
    | some values => if rest = [] ∨ rest = [[]] then readNumbers (splitText ',' values) else .error .nonNumericValue

/-- A number written with the given digits, leading zeros and all (30_encoding.md R55). -/
def numberText (digits : List (Fin 10)) : Text := digits.map (fun d => digitChar d.val)

/-- The number that decimal digits stand for, the most significant first. -/
def numberValue (digits : List (Fin 10)) : Nat := digits.foldl (fun n d => n * 10 + d.val) 0

/-- A register line as R54 writes it. -/
def registerLine (r : Reg) (number : Text) : Text := registerKeyword ++ regLabel r :: ':' :: ' ' :: number

/-- Pieces joined by a character. -/
def joinText (sep : Char) : List Text → Text
  | [] => []
  | [piece] => piece
  | piece :: next :: rest => piece ++ sep :: joinText sep (next :: rest)

/-- The program representation of 30_encoding.md R54, without the optional last LF, from the texts of
its numbers. -/
def programText (a b c : Text) (program : List Text) : Text :=
  joinText lineEnd
    [registerLine .a a, registerLine .b b, registerLine .c c, [], programKeyword ++ joinText ',' program]

/-- The register lines that stand before the line of a register, each with its LF (30_encoding.md R54), from
the texts of their numbers. -/
def linesBefore (a b : Text) : Reg → Text
  | .a => []
  | .b => registerLine .a a ++ [lineEnd]
  | .c => registerLine .a a ++ [lineEnd] ++ registerLine .b b ++ [lineEnd]

/-- The three register lines, without the last one's LF (30_encoding.md R54). -/
def registerLines (a b c : Text) : Text := linesBefore a b .c ++ registerLine .c c

/-- Parse the program representation, "without running the machine" (30_encoding.md R57). -/
def parseText (text : Text) : Except LoadError LoadArgs :=
  match takeRegister .a (splitText lineEnd text) with
  | .error e => .error e
  | .ok (a0, afterA) =>
    match takeRegister .b afterA with
    | .error e => .error e
    | .ok (b0, afterB) =>
      match takeRegister .c afterB with
      | .error e => .error e
      | .ok (c0, afterC) =>
        match takeBlank afterC with
        | .error e => .error e
        | .ok afterBlank =>
          (takeProgram afterBlank).map (fun ps => { program := ps, a0 := a0, b0 := b0, c0 := c0 })

/-- Load from the text representation (70_reset_and_hazards.md R96, 60_exceptions.md R95). -/
def loadText (policies : Policies) (text : Text) : Except LoadError State :=
  match parseText text with
  | .error e => .error e
  | .ok x => load policies x

/-! ### The Output Trace (30_encoding.md R58) -/

/-- "rendered as the decimal values of each emitted item, joined by commas, in emission order"; an empty
trace is the empty text (30_encoding.md R58). -/
def renderTrace : List OutVal → Text
  | [] => []
  | [v] => [digitChar v.toNat]
  | v :: w :: rest => digitChar v.toNat :: ',' :: renderTrace (w :: rest)

/-! ### Assembly notation (30_encoding.md R53) -/

/-- The upper-case mnemonic. -/
def mnemonicText : Instr → Text
  | .adv _ => ['A', 'D', 'V']
  | .bxl _ => ['B', 'X', 'L']
  | .bst _ => ['B', 'S', 'T']
  | .jnz _ => ['J', 'N', 'Z']
  | .bxc _ => ['B', 'X', 'C']
  | .out _ => ['O', 'U', 'T']
  | .bdv _ => ['B', 'D', 'V']
  | .cdv _ => ['C', 'D', 'V']

/-- A byte in decimal, without leading zeros. -/
def byteText (v : Byte) : Text :=
  if v.toNat < 10 then [digitChar v.toNat]
  else if v.toNat < 100 then [digitChar (v.toNat / 10), digitChar (v.toNat % 10)]
  else [digitChar (v.toNat / 100), digitChar (v.toNat / 10 % 10), digitChar (v.toNat % 10)]

/-- An instruction in the notation of R53: mnemonic, one space, the operand byte in decimal. -/
def assemblyText (i : Instr) : Text := mnemonicText i ++ ' ' :: byteText i.operand

/-- The instruction of a mnemonic, with its operand. -/
def ofMnemonic (mnemonic : Text) (operand : Byte) : Option Instr :=
  [Instr.adv operand, .bxl operand, .bst operand, .jnz operand, .bxc operand, .out operand,
    .bdv operand, .cdv operand].find? (fun i => mnemonicText i = mnemonic)

/-- Read the notation of R53 (what texts beside the written ones it takes: notes/assumptions/18.md). -/
def readAssembly (text : Text) : Option Instr :=
  match breakText ' ' text with
  | none => none
  | some (mnemonic, operand) =>
    match readNumber operand with
    | .error _ => none
    | .ok n => if n < 256 then ofMnemonic mnemonic (BitVec.ofNat 8 n) else none

end Sys2Proof.Machine
end

