-- ==== Sys2Proof/Machine/HostInterface.lean ====
section
/-! DEFINITION. What the host can do with an instance (60_exceptions.md R95) and the run to completion
under the host's step limit (40_execution_engine.md R65, R66). -/

namespace Sys2Proof.Machine

/-- What a host asks for (60_exceptions.md R95). -/
inductive HostRequest where
  | load (policies : Policies) (args : LoadArgs)
  | loadText (policies : Policies) (text : Text)
  | step
  | read
  /-- the host stops issuing steps -/
  | abort
deriving DecidableEq, Repr

/-- What the host gets back (60_exceptions.md R95), with the instance as it is after the request. -/
inductive HostReply where
  /-- a new Running instance; any earlier state is discarded (70_reset_and_hazards.md R96) -/
  | loaded (s : State)
  /-- the load error; no machine is built -/
  | loadRefused (e : LoadError)
  /-- the instance after the step and its ports -/
  | stepped (s : State) (ports : Ports)
  /-- the instance, unchanged by reading, and its ports -/
  | observed (s : State) (ports : Ports)
  /-- "an externally observed abort, not a machine-defined outcome": the instance as after the last step -/
  | aborted (s : State)
  /-- the step had no next state (no step of this machine is such) -/
  | noNextState
deriving DecidableEq, Repr

/-- The reply to a load. -/
def loadReply : Except LoadError State → HostReply
  | .ok s => .loaded s
  | .error e => .loadRefused e

/-- The reply to a step request. -/
def stepReply (before : State) : Host.Outcome State Fault Refusal → HostReply
  | .next after => .stepped after (portsAfter before after)
  | .fault _ => .noNextState
  | .refused _ => .noNextState

/-- One interaction of the host with an instance (60_exceptions.md R95). No request writes a register,
`ip`, the status or the Program Store but a load. -/
def serve (s : State) : HostRequest → HostReply
  | .load policies args => loadReply (load policies args)
  | .loadText policies text => loadReply (Sys2Proof.Machine.loadText policies text)
  | .step => stepReply s (step s)
  | .read => .observed s (portsAfter s s)
  | .abort => .aborted s

/-- `k` step requests in a row (60_exceptions.md R93, R95); the machine itself only knows the step
(40_execution_engine.md R65). -/
def steps : Nat → State → Host.Outcome State Fault Refusal
  | 0, s => .next s
  | k + 1, s =>
    match step s with
    | .next t => steps k t
    | .fault f => .fault f
    | .refused r => .refused r

/-- How a run under the host's step limit ends. -/
inductive RunEnd where
  /-- the first state whose status is Halted or Faulted (40_execution_engine.md R66) -/
  | ended (s : State)
  /-- the host's limit was reached in a Running state (60_exceptions.md R95) -/
  | limitReached (s : State)
deriving DecidableEq, Repr

/-- Run to completion with at most `limit` steps (40_execution_engine.md R65): the core itself puts no
bound on a run, the limit is the host's (notes/assumptions/20.md). -/
def runToCompletion : Nat → State → Host.Outcome RunEnd Fault Refusal
  | 0, s => .next (if s.status = .running then .limitReached s else .ended s)
  | limit + 1, s =>
    if s.status = .running then
      match step s with
      | .next t => runToCompletion limit t
      | .fault f => .fault f
      | .refused r => .refused r
    else .next (.ended s)

end Sys2Proof.Machine
end

