-- ==== Sys2Proof/Safety.lean ====
section
/-! DEFINITION. What counts as a good state: the machine's invariant, the duties the spec puts on the
program author, and the run without a fault. -/

namespace Sys2Proof.Machine

/-- The fault record is there exactly when the status is Faulted, and it names the `ip` the machine
stopped at (10_state.md R21, 60_exceptions.md R84). -/
abbrev faultRecordOk (s : State) : Prop :=
  (s.fault.isSome ↔ s.status = .faulted) ∧ ∀ f ∈ s.fault, f.ip = s.ip

/-- "every reachable `ip` satisfies `ip <= max(N, 255)`" (10_state.md R19). -/
abbrev ipBounded (s : State) : Prop := s.ip ≤ max s.size 255

/-- `ip` is even, unless odd targets are executed (10_state.md R18, 43_control.md R79). -/
abbrev ipPaired (s : State) : Prop := s.policies.oddTarget = .fault → s.ip % 2 = 0

/-- The invariant of the machine: the store's canonical form, the fault record, and the two bounds on
`ip`. -/
abbrev MachineInvariant (s : State) : Prop := storeWf s ∧ faultRecordOk s ∧ ipBounded s ∧ ipPaired s

/-- A jump target of the instruction, if it has one, is even (70_reset_and_hazards.md R99 (c)). -/
def targetEven : Instr → Bool
  | .jnz lit => lit.toNat % 2 = 0
  | .adv _ => true
  | .bxl _ => true
  | .bst _ => true
  | .bxc _ => true
  | .out _ => true
  | .bdv _ => true
  | .cdv _ => true

/-- A pair an author may write: it decodes, its operand is legal, its jump target even. -/
def dutifulPair (opcode operand : Byte) : Bool :=
  match decodePair opcode operand with
  | .ok i => i.wellFormed && targetEven i
  | .error _ => false

/-- The duties of the program author (70_reset_and_hazards.md R99): (a) every byte 0 to 7, (b) an even
length, (c) even jump targets, (d) no combo operand of 7; (c) and (d) for the pairs at even indexes. -/
abbrev authorDuties (s : State) : Prop :=
  s.size % 2 = 0 ∧ (∀ i < s.size, (memByte s.mem i).toNat ≤ 7) ∧
    ∀ i < s.size, i % 2 = 0 → dutifulPair (memByte s.mem i) (memByte s.mem (i + 1)) = true

/-- A state in which nothing has gone wrong and nothing can: a dutiful program at a paired `ip`, with
the default treatment of large shifts, not Faulted. -/
abbrev soundRun (s : State) : Prop :=
  authorDuties s ∧ s.ip % 2 = 0 ∧ s.policies.largeShift = .zero ∧ s.status ≠ .faulted

/-- The register a combo operand adds to the reads (10_state.md R13). -/
def comboReads (operand : Byte) : List Reg := (indexedReg operand.toNat).toList

/-- The registers an instruction reads, fixed and through combo: the table of 10_state.md R13. -/
def regReads : Instr → List Reg
  | .adv k => .a :: comboReads k
  | .bxl _ => [.b]
  | .bst k => comboReads k
  | .jnz _ => [.a]
  | .bxc _ => [.b, .c]
  | .out k => comboReads k
  | .bdv k => .a :: comboReads k
  | .cdv k => .a :: comboReads k

/-- The register an instruction writes, if any: the table of 10_state.md R13, which is also the write
select of the router (R15). -/
def regWrites : Instr → Option Reg
  | .adv _ => some .a
  | .bxl _ => some .b
  | .bst _ => some .b
  | .jnz _ => none
  | .bxc _ => some .b
  | .out _ => none
  | .bdv _ => some .b
  | .cdv _ => some .c

/-- `n` executions of one instruction in a row, stopping at the first that has no next state. -/
def execTimes (i : Instr) : Nat → State → Host.Outcome State Fault Refusal
  | 0, s => .next s
  | n + 1, s =>
    match exec i s with
    | .next t => execTimes i n t
    | .fault f => .fault f
    | .refused r => .refused r

end Sys2Proof.Machine
end

