-- ==== Sys2Proof/Certificates/Slice0/Obligations.lean ====
section
/-! DEFINITION. The statements about the model, from the numbered rules of spec/. Each docstring names the
rule it formalises. -/

open Sys2Proof Sys2Proof.Machine

/-! ### Load and reset (10_state.md R27, 70_reset_and_hazards.md R96 to R98) -/

/-- 10_state.md R27 and 70_reset_and_hazards.md R96: an accepted load sets every piece of state to its
value, a load with a value out of range is refused with `ValueOutOfRange`, the text form loads what it
parses to, a text that does not parse is refused (30_encoding.md R57), and the instance's earlier state plays
no part. Two clauses are the model's choice: that the refusal of a text that does not parse is the parse's own
error, also where a value is out of range as well (notes/assumptions/15.md), and that the instance holds the
policies it was loaded with (notes/assumptions/3.md). -/
def Obligations.LoadSetsEveryPieceOfStateOrRefuses : Prop :=
  ∀ (policies : Policies) (x : LoadArgs),
    ((∀ v ∈ x.program, v < 256) → x.a0 < 2 ^ 64 → x.b0 < 2 ^ 64 → x.c0 < 2 ^ 64 →
      ∃ s, load policies x = .ok s ∧ s.size = x.program.length ∧
        (∀ i v, x.program[i]? = some v → (memRead s i).map BitVec.toNat = .ok v) ∧
        s.a.toNat = x.a0 ∧ s.b.toNat = x.b0 ∧ s.c.toNat = x.c0 ∧ s.ip = 0 ∧ s.status = .running ∧
        s.fault = none ∧ s.trace = [] ∧ s.policies = policies) ∧
    (((∃ v ∈ x.program, 256 ≤ v) ∨ 2 ^ 64 ≤ x.a0 ∨ 2 ^ 64 ≤ x.b0 ∨ 2 ^ 64 ≤ x.c0) →
      load policies x = .error .valueOutOfRange) ∧
    (∀ text, parseText text = .ok x → loadText policies text = load policies x) ∧
    (∀ text e, parseText text = .error e → loadText policies text = .error e) ∧
    (∀ s s' : State, serve s (.load policies x) = serve s' (.load policies x))

/-- The model's State.reset is what load gives for an empty program and zero registers under the default
policies, and from it every number of steps ends in the same state, Halted: nothing runs before a load
(the zeros and the empty program are the model's choice: notes/assumptions/4.md and 5.md). -/
def Obligations.FromResetNothingRunsBeforeALoad : Prop :=
  load defaultPolicies { program := [], a0 := 0, b0 := 0, c0 := 0 } = .ok State.reset ∧
  ∀ k, steps (k + 1) State.reset = .next { State.reset with status := .halted }

/-- The state after reset meets the machine's invariant. -/
def Obligations.ResetMeetsTheInvariant : Prop := MachineInvariant State.reset

/-- Every loaded instance meets the machine's invariant. -/
def Obligations.EveryLoadMeetsTheInvariant : Prop :=
  ∀ policies x s, load policies x = .ok s → MachineInvariant s

/-- 70_reset_and_hazards.md R98: the first step executes the pair at index 0, or halts at once when
`N < 2`; a first opcode byte 8 to 255 takes `InvalidOpcode` with `fault_ip` 0 (60_exceptions.md R83). -/
def Obligations.FirstStepRunsThePairAtIndexZero : Prop :=
  ∀ policies x s, load policies x = .ok s →
    (x.program.length < 2 → step s = .next { s with status := .halted }) ∧
    (∀ o k rest i, x.program = o :: k :: rest → decodePair (BitVec.ofNat 8 o) (BitVec.ofNat 8 k) = .ok i →
      step s = exec i s) ∧
    (∀ o k rest, x.program = o :: k :: rest → 8 ≤ o →
      step s = .next { s with status := .faulted, fault := some { reason := .invalidOpcode, ip := 0 } })

/-! ### The whole machine -/

/-- Every step keeps the invariant, from every state that meets it: the Program Store's canonical form,
the fault record present exactly in Faulted and naming `ip` (R21, R84), `ip <= max(N, 255)` (R19), and
`ip` even unless odd targets are executed (R18, R79). -/
def Obligations.EveryStepKeepsTheInvariant : Prop :=
  ∀ s t, MachineInvariant s → step s = .next t → MachineInvariant t

/-- Every state a run reaches from any load meets the invariant. -/
def Obligations.EveryReachableStateMeetsTheInvariant : Prop :=
  ∀ policies x s k t, load policies x = .ok s → steps k s = .next t → MachineInvariant t

/-- 40_execution_engine.md R60, R68: a step, and so a run of any number of steps, always has a next state;
nothing is refused and no read leaves the Program Store. -/
def Obligations.EveryStepHasANextState : Prop :=
  (∀ s, ∃ t, step s = .next t) ∧ ∀ k s, ∃ t, steps k s = .next t

/-- 40_execution_engine.md R60: when the two bytes at `ip` decode to an instruction, the step is that
instruction's execution and nothing else. -/
def Obligations.AStepRunsTheDecodedInstruction : Prop :=
  ∀ s opcode operand i rest, s.status = .running → memRead s s.ip = .ok opcode →
    memRead s (s.ip + 1) = .ok operand → decode [opcode, operand] = .ok (i, rest) → step s = exec i s

/-- 40_execution_engine.md R61: the step halts the machine exactly when `ip + 1 >= N`, and a halting step
writes the status and nothing else. -/
def Obligations.HaltsExactlyWhenNoPairIsAvailable : Prop :=
  ∀ s, s.status = .running →
    (s.size ≤ s.ip + 1 → step s = .next { s with status := .halted }) ∧
    (s.ip + 1 < s.size → ∃ t, step s = .next t ∧ t.status ≠ .halted)

/-- 30_encoding.md R49: the router sends opcode bytes 0 to 7 to the eight handlers with the operand byte,
and 8 to 255 to `Fault(InvalidOpcode)`. -/
def Obligations.TheRouterSelectsByOpcodeByte : Prop :=
  ∀ s opcode operand, s.status = .running → memRead s s.ip = .ok opcode →
    memRead s (s.ip + 1) = .ok operand →
    (opcode = 0 → step s = exec (.adv operand) s) ∧ (opcode = 1 → step s = exec (.bxl operand) s) ∧
    (opcode = 2 → step s = exec (.bst operand) s) ∧ (opcode = 3 → step s = exec (.jnz operand) s) ∧
    (opcode = 4 → step s = exec (.bxc operand) s) ∧ (opcode = 5 → step s = exec (.out operand) s) ∧
    (opcode = 6 → step s = exec (.bdv operand) s) ∧ (opcode = 7 → step s = exec (.cdv operand) s) ∧
    (8 ≤ opcode.toNat →
      step s = .next { s with status := .faulted, fault := some { reason := .invalidOpcode, ip := s.ip } })

/-- 40_execution_engine.md R64: a step requested while Halted or Faulted changes nothing and emits
nothing. -/
def Obligations.StoppedMachinesStayAsTheyAre : Prop :=
  ∀ s, s.status ≠ .running → step s = .next s ∧ (portsAfter s s).outValid = false

/-- 10_state.md R20: the transitions of the status, and its codes on the port; only a load leads back to
Running. -/
def Obligations.StatusTransitionsAndCodes : Prop :=
  (∀ s t, step s = .next t →
    (s.status = .running → s.ip + 1 < s.size → t.status = .running ∨ t.status = .faulted) ∧
    (s.status = .running → s.size ≤ s.ip + 1 → t.status = .halted) ∧
    (s.status = .halted → t.status = .halted) ∧ (s.status = .faulted → t.status = .faulted)) ∧
  (∀ policies x s, load policies x = .ok s → s.status = .running) ∧
  (∀ s t, (portsAfter s t).status =
    if t.status = .running then 0 else if t.status = .halted then 1 else 2)

/-- 60_exceptions.md R84: a faulting step commits nothing of the instruction; it writes the status and the
fault record `(reason, ip)` and nothing else. -/
def Obligations.AFaultingStepCommitsNothing : Prop :=
  ∀ s t, s.status = .running → step s = .next t → t.status = .faulted →
    ∃ reason, t = { s with status := .faulted, fault := some { reason := reason, ip := s.ip } }

/-- 60_exceptions.md R85: the order of the checks. The first that applies decides, and a step to which
none applies does not fault. -/
def Obligations.FaultChecksAreMadeInOrder : Prop :=
  ∀ s opcode operand, s.status = .running →
    (s.size ≤ s.ip + 1 → ∃ t, step s = .next t ∧ t.status = .halted ∧ t.fault = s.fault) ∧
    (memRead s s.ip = .ok opcode → memRead s (s.ip + 1) = .ok operand →
      (8 ≤ opcode.toNat → step s = .next (raiseFault s .invalidOpcode)) ∧
      (opcode.toNat ∈ [0, 2, 5, 6, 7] → 7 ≤ operand.toNat →
        step s = .next (raiseFault s .invalidCombo)) ∧
      (∀ v, opcode.toNat ∈ [0, 6, 7] → combo s operand = .ok v → s.policies.largeShift = .fault →
        64 ≤ v.toNat → step s = .next (raiseFault s .shiftOverflow)) ∧
      (opcode = 3 → s.a ≠ 0 → operand.toNat ≠ s.ip → operand.toNat % 2 = 1 →
        s.policies.oddTarget = .fault → step s = .next (raiseFault s .misalignedTarget)) ∧
      (∀ t, step s = .next t → t.status = .faulted →
        8 ≤ opcode.toNat ∨ (opcode.toNat ∈ [0, 2, 5, 6, 7] ∧ 7 ≤ operand.toNat) ∨
        (opcode.toNat ∈ [0, 6, 7] ∧ s.policies.largeShift = .fault ∧
          ∃ v, combo s operand = .ok v ∧ 64 ≤ v.toNat) ∨
        (opcode = 3 ∧ s.a ≠ 0 ∧ operand.toNat ≠ s.ip ∧ operand.toNat % 2 = 1 ∧
          s.policies.oddTarget = .fault)))

/-- 60_exceptions.md R83, 10_state.md R28: the codes on the fault_reason port, 0 meaning no fault, and the
fault_ip port. -/
def Obligations.FaultPortsShowTheRecord : Prop :=
  ∀ s t, (t.fault = none → (portsAfter s t).faultReason = 0 ∧ (portsAfter s t).faultIp = none) ∧
    ∀ ip, (t.fault = some ⟨.invalidCombo, ip⟩ →
        (portsAfter s t).faultReason = 1 ∧ (portsAfter s t).faultIp = some ip) ∧
      (t.fault = some ⟨.invalidOpcode, ip⟩ →
        (portsAfter s t).faultReason = 2 ∧ (portsAfter s t).faultIp = some ip) ∧
      (t.fault = some ⟨.misalignedTarget, ip⟩ →
        (portsAfter s t).faultReason = 3 ∧ (portsAfter s t).faultIp = some ip) ∧
      (t.fault = some ⟨.shiftOverflow, ip⟩ →
        (portsAfter s t).faultReason = 4 ∧ (portsAfter s t).faultIp = some ip)

/-- 40_execution_engine.md R63: a committed step writes at most one register, writes `ip` (`ip + 2` for
every opcode but 3) and appends at most one value to the Output Trace (none for every opcode but 5). -/
def Obligations.ACommittedStepWritesAtMostOnce : Prop :=
  ∀ s t opcode, s.status = .running → step s = .next t → t.status = .running →
    memRead s s.ip = .ok opcode →
    ((t.b = s.b ∧ t.c = s.c) ∨ (t.a = s.a ∧ t.c = s.c) ∨ (t.a = s.a ∧ t.b = s.b)) ∧
    (opcode ≠ 3 → t.ip = s.ip + 2) ∧
    (opcode ≠ 5 → t.trace = s.trace) ∧ (opcode = 5 → ∃ v, t.trace = s.trace ++ [v])

/-- 20_memory.md R39: the Program Store is never mutated: no number of steps changes its length or what
any read of it gives. Nor does any change the two policies: they are arguments of the model
(40_execution_engine.md R68), and that they stand in State and no step changes them is the model's choice
(notes/assumptions/3.md). -/
def Obligations.TheProgramStoreNeverChanges : Prop :=
  ∀ k s t, steps k s = .next t →
    t.size = s.size ∧ t.policies = s.policies ∧ ∀ addr, memRead t addr = memRead s addr

/-- 40_execution_engine.md R67: the Output Trace at any point of a run is a prefix of the trace of the full
run. -/
def Obligations.TheTraceSoFarIsAPrefixOfTheFullTrace : Prop :=
  (∀ k s t, steps k s = .next t → s.trace <+: t.trace) ∧
  ∀ limit s u k t, runToCompletion limit s = .next (.ended u) → steps k s = .next t →
    t.trace <+: u.trace

/-- 40_execution_engine.md R65, R66: a run to completion ends in the first state whose status is not
Running; where the host's limit comes first the state is still Running. -/
def Obligations.ARunEndsAtTheFirstStoppedState : Prop :=
  ∀ limit s,
    (∃ u, runToCompletion limit s = .next (.ended u) ∧ u.status ≠ .running ∧
      ∃ k ≤ limit, steps k s = .next u ∧
        ∀ j < k, ∃ w, steps j s = .next w ∧ w.status = .running) ∨
    (∃ u, runToCompletion limit s = .next (.limitReached u) ∧ u.status = .running ∧
      steps limit s = .next u)

/-- 10_state.md R23, R25: what has been emitted never feeds back: a run with any other earlier trace does
the same steps and appends the same values. -/
def Obligations.EmittedValuesNeverFeedBack : Prop :=
  ∀ k s t earlier, steps k s = .next t →
    steps k { s with trace := earlier ++ s.trace } =
      .next { t with trace := earlier ++ t.trace }

/-- 70_reset_and_hazards.md R99: where the program author's duties are met, `ip` is even and the machine is
not Faulted, no step faults (under the default treatment of large shifts), and the next state is such a
state again. -/
def Obligations.ADutifulProgramNeverFaults : Prop :=
  ∀ s, soundRun s → ∃ t, step s = .next t ∧ soundRun t

/-! ### The operand resolver and the division law -/

/-- 30_encoding.md R46: the operand resolver, for every operand byte (8 to 255 by the spec's own decision D7,
92_eei_decisions.md), and its `valid` bit (R47, which the spec marks as derived). -/
def Obligations.ComboOperandsResolve : Prop :=
  ∀ s (k : Byte),
    (k.toNat ≤ 3 → ∃ v, combo s k = .ok v ∧ v.toNat = k.toNat) ∧
    (k.toNat = 4 → combo s k = .ok s.a) ∧ (k.toNat = 5 → combo s k = .ok s.b) ∧
    (k.toNat = 6 → combo s k = .ok s.c) ∧ (7 ≤ k.toNat → combo s k = .error .invalidCombo) ∧
    (comboValid k = true ↔ ∃ v, combo s k = .ok v)

/-- 30_encoding.md R48: the operand byte of BXC plays no part in what it does and no fault follows from it,
but it must be there: a lone opcode byte 4 halts. -/
def Obligations.TheIgnoredOperandPlaysNoPart : Prop :=
  (∀ s x y, exec (.bxc x) s = exec (.bxc y) s) ∧
  (∀ s x, ∃ t, exec (.bxc x) s = .next t ∧ t.status = s.status ∧ t.fault = s.fault) ∧
  ∀ s, s.status = .running → memRead s s.ip = .ok 4 → s.size = s.ip + 1 →
    step s = .next { s with status := .halted }

/-- 41_division.md R69: the law of the three divisions, exact floor division of naturals; a count of 64 or
more gives 0 under the default policy and raises `ShiftOverflow` under the other. -/
def Obligations.ShiftIsExactFloorDivision : Prop :=
  ∀ policy (x sh : Word),
    (sh.toNat < 64 ∨ policy = .zero → ∃ q, shr policy x sh = .ok q ∧ q.toNat = x.toNat / 2 ^ sh.toNat ∧
      q.toNat ≤ x.toNat ∧ (64 ≤ sh.toNat → q.toNat = 0)) ∧
    (64 ≤ sh.toNat → policy = .fault → shr policy x sh = .error .shiftOverflow)

/-! ### The eight instructions -/

/-- 41_division.md R71: ADV. -/
def Obligations.AdvDividesAIntoA : Prop :=
  ∀ s (k : Byte),
    decode [0, k] = .ok (.adv k, []) ∧ tableWord (.adv k) = k.toNat ∧
    (k.toNat ≤ 6 → ∃ v, combo s k = .ok v ∧
      (v.toNat < 64 ∨ s.policies.largeShift = .zero →
        exec (.adv k) s = .next { s with a := BitVec.ofNat 64 (s.a.toNat / 2 ^ v.toNat), ip := s.ip + 2 }) ∧
      (64 ≤ v.toNat → s.policies.largeShift = .fault → exec (.adv k) s = .next
        { s with status := .faulted, fault := some { reason := .shiftOverflow, ip := s.ip } })) ∧
    (7 ≤ k.toNat → exec (.adv k) s = .next
      { s with status := .faulted, fault := some { reason := .invalidCombo, ip := s.ip } }) ∧
    (∀ i t, exec i s = .next t → t.a ≠ s.a → ∃ j, i = .adv j)

/-- 41_division.md R72: BDV. -/
def Obligations.BdvDividesAIntoB : Prop :=
  ∀ s (k : Byte),
    decode [6, k] = .ok (.bdv k, []) ∧ tableWord (.bdv k) = 0x0600 + k.toNat ∧
    (k.toNat ≤ 6 → ∃ v, combo s k = .ok v ∧
      (v.toNat < 64 ∨ s.policies.largeShift = .zero →
        exec (.bdv k) s = .next { s with b := BitVec.ofNat 64 (s.a.toNat / 2 ^ v.toNat), ip := s.ip + 2 }) ∧
      (64 ≤ v.toNat → s.policies.largeShift = .fault → exec (.bdv k) s = .next
        { s with status := .faulted, fault := some { reason := .shiftOverflow, ip := s.ip } })) ∧
    (7 ≤ k.toNat → exec (.bdv k) s = .next
      { s with status := .faulted, fault := some { reason := .invalidCombo, ip := s.ip } })

/-- 41_division.md R73: CDV. -/
def Obligations.CdvDividesAIntoC : Prop :=
  ∀ s (k : Byte),
    decode [7, k] = .ok (.cdv k, []) ∧ tableWord (.cdv k) = 0x0700 + k.toNat ∧
    (k.toNat ≤ 6 → ∃ v, combo s k = .ok v ∧
      (v.toNat < 64 ∨ s.policies.largeShift = .zero →
        exec (.cdv k) s = .next { s with c := BitVec.ofNat 64 (s.a.toNat / 2 ^ v.toNat), ip := s.ip + 2 }) ∧
      (64 ≤ v.toNat → s.policies.largeShift = .fault → exec (.cdv k) s = .next
        { s with status := .faulted, fault := some { reason := .shiftOverflow, ip := s.ip } })) ∧
    (7 ≤ k.toNat → exec (.cdv k) s = .next
      { s with status := .faulted, fault := some { reason := .invalidCombo, ip := s.ip } }) ∧
    (∀ i t, exec i s = .next t → t.c ≠ s.c → ∃ j, i = .cdv j)

/-- 42_bitwise.md R74: BXL, for every literal 0 to 255. -/
def Obligations.BxlXorsTheLiteralIntoB : Prop :=
  ∀ s (lit : Byte),
    decode [1, lit] = .ok (.bxl lit, []) ∧ tableWord (.bxl lit) = 0x0100 + lit.toNat ∧
    exec (.bxl lit) s = .next { s with b := BitVec.ofNat 64 (s.b.toNat ^^^ lit.toNat), ip := s.ip + 2 }

/-- 42_bitwise.md R75: BST. -/
def Obligations.BstSetsBToComboModEight : Prop :=
  ∀ s (k : Byte),
    decode [2, k] = .ok (.bst k, []) ∧ tableWord (.bst k) = 0x0200 + k.toNat ∧
    (k.toNat ≤ 6 → ∃ v, combo s k = .ok v ∧
      exec (.bst k) s = .next { s with b := BitVec.ofNat 64 (v.toNat % 8), ip := s.ip + 2 }) ∧
    (7 ≤ k.toNat → exec (.bst k) s = .next
      { s with status := .faulted, fault := some { reason := .invalidCombo, ip := s.ip } })

/-- 42_bitwise.md R76: BXC, for every operand byte; without an operand byte it halts instead. -/
def Obligations.BxcXorsCIntoB : Prop :=
  ∀ s (x : Byte),
    decode [4, x] = .ok (.bxc x, []) ∧ tableWord (.bxc x) = 0x0400 + x.toNat ∧
    exec (.bxc x) s = .next { s with b := BitVec.ofNat 64 (s.b.toNat ^^^ s.c.toNat), ip := s.ip + 2 } ∧
    (s.status = .running → memRead s s.ip = .ok 4 → s.size = s.ip + 1 →
      step s = .next { s with status := .halted })

/-- 43_control.md R77: JNZ with the self-jump guard; a target with no full pair is taken, and the next step
halts. -/
def Obligations.JnzJumpsIfAIsNotZero : Prop :=
  ∀ s (lit : Byte),
    decode [3, lit] = .ok (.jnz lit, []) ∧ tableWord (.jnz lit) = 0x0300 + lit.toNat ∧
    (s.a = 0 → exec (.jnz lit) s = .next { s with ip := s.ip + 2 }) ∧
    (lit.toNat = s.ip → exec (.jnz lit) s = .next { s with ip := s.ip + 2 }) ∧
    (s.a ≠ 0 → lit.toNat ≠ s.ip → lit.toNat % 2 = 0 ∨ s.policies.oddTarget = .execute →
      exec (.jnz lit) s = .next { s with ip := lit.toNat } ∧
      (s.status = .running → s.size ≤ lit.toNat + 1 →
        step { s with ip := lit.toNat } = .next { s with ip := lit.toNat, status := .halted })) ∧
    (s.a ≠ 0 → lit.toNat ≠ s.ip → lit.toNat % 2 = 1 → s.policies.oddTarget = .fault →
      exec (.jnz lit) s = .next
        { s with status := .faulted, fault := some { reason := .misalignedTarget, ip := s.ip } })

/-- 43_control.md R79: an odd target, under both policies; under `execute` the next step pairs the byte at
the odd index with the byte after it; a JNZ that falls through never faults. -/
def Obligations.OddTargetsFollowThePolicy : Prop :=
  ∀ s (lit : Byte), lit.toNat % 2 = 1 →
    (s.a ≠ 0 → lit.toNat ≠ s.ip → s.policies.oddTarget = .fault →
      exec (.jnz lit) s = .next
        { s with status := .faulted, fault := some { reason := .misalignedTarget, ip := s.ip } }) ∧
    (s.a ≠ 0 → lit.toNat ≠ s.ip → s.policies.oddTarget = .execute →
      exec (.jnz lit) s = .next { s with ip := lit.toNat } ∧
      ∀ opcode operand i, s.status = .running → memRead s lit.toNat = .ok opcode →
        memRead s (lit.toNat + 1) = .ok operand → decodePair opcode operand = .ok i →
        step { s with ip := lit.toNat } = exec i { s with ip := lit.toNat }) ∧
    (s.a = 0 ∨ lit.toNat = s.ip → exec (.jnz lit) s = .next { s with ip := s.ip + 2 })

/-- 44_output.md R80: OUT, and the out_valid and out_value ports after it. -/
def Obligations.OutEmitsComboModEight : Prop :=
  ∀ s (k : Byte),
    decode [5, k] = .ok (.out k, []) ∧ tableWord (.out k) = 0x0500 + k.toNat ∧
    (k.toNat ≤ 6 → ∃ v t, combo s k = .ok v ∧ exec (.out k) s = .next t ∧
      t = { s with trace := s.trace ++ [BitVec.ofNat 3 (v.toNat % 8)], ip := s.ip + 2 } ∧
      (portsAfter s t).outValid = true ∧ (portsAfter s t).outValue.toNat = v.toNat % 8) ∧
    (7 ≤ k.toNat → ∃ t, exec (.out k) s = .next t ∧
      t = { s with status := .faulted, fault := some { reason := .invalidCombo, ip := s.ip } } ∧
      (portsAfter s t).outValid = false) ∧
    (∀ u t, step u = .next t → (portsAfter u t).outValid = true →
      u.status = .running ∧ t.status = .running ∧ memRead u u.ip = .ok 5)

/-- 10_state.md R28: out_valid is 1 for exactly the steps that commit an OUT, and the observation ports
show the state. -/
def Obligations.OutputPortsShowTheStep : Prop :=
  ∀ s t, step s = .next t →
    ((portsAfter s t).outValid = true ↔
      s.status = .running ∧ t.status = .running ∧ s.ip + 1 < s.size ∧ memRead s s.ip = .ok 5) ∧
    t.trace = s.trace ++ (if (portsAfter s t).outValid then [(portsAfter s t).outValue] else []) ∧
    (portsAfter s t).trace = t.trace ∧ (portsAfter s t).regA = t.a ∧ (portsAfter s t).regB = t.b ∧
    (portsAfter s t).regC = t.c ∧ (portsAfter s t).ip = t.ip

/-- 10_state.md R13, R15: the registers each instruction writes, and the registers it reads: a register
outside an instruction's reads may hold anything without changing what the instruction does to the rest
of the state. -/
def Obligations.RegistersReadAndWrittenFollowTheTable : Prop :=
  (∀ i s t, exec i s = .next t →
    (t.a ≠ s.a → regWrites i = some .a) ∧ (t.b ≠ s.b → regWrites i = some .b) ∧
    (t.c ≠ s.c → regWrites i = some .c)) ∧
  ∀ i s t v, exec i s = .next t →
    (.a ∉ regReads i → exec i { s with a := v } = .next { t with a := v }) ∧
    (.b ∉ regReads i → ∃ w, exec i { s with b := v } = .next { t with b := w } ∧
      (regWrites i = some .b ∧ t.status = s.status ∧ s.status = .running → w = t.b) ∧
      (regWrites i ≠ some .b → w = v)) ∧
    (.c ∉ regReads i → ∃ w, exec i { s with c := v } = .next { t with c := w } ∧
      (regWrites i = some .c ∧ t.status = s.status ∧ s.status = .running → w = t.c) ∧
      (regWrites i ≠ some .c → w = v))

/-- The frame of all eight instructions: the Program Store, its length and the policies (which stand in State
by the model's choice, notes/assumptions/3.md) never change; a
register outside the instruction's write select, the trace under every instruction but OUT, and the status
and fault record of an execution that does not fault stay as they were. -/
def Obligations.ExecutionLeavesTheRestUnchanged : Prop :=
  ∀ i s t, exec i s = .next t →
    (∀ addr, memRead t addr = memRead s addr) ∧ t.size = s.size ∧ t.policies = s.policies ∧
    (∀ r, regWrites i ≠ some r → readReg t r = readReg s r) ∧
    ((∀ k, i ≠ .out k) → t.trace = s.trace) ∧
    ((t.status = s.status ∧ t.fault = s.fault) ∨
      ∃ reason, t = { s with status := .faulted, fault := some { reason := reason, ip := s.ip } })

/-- 10_state.md R16: what a committed instruction can write: the divisions at most the old A, BST less than
8, BXL and BXC the exact exclusive or, all below 2^64. -/
def Obligations.RegisterWritesStayBelowTheWordSize : Prop :=
  ∀ s t k, s.status = .running → t.status = .running →
    (exec (.adv k) s = .next t → t.a.toNat ≤ s.a.toNat) ∧
    (exec (.bdv k) s = .next t → t.b.toNat ≤ s.a.toNat) ∧
    (exec (.cdv k) s = .next t → t.c.toNat ≤ s.a.toNat) ∧
    (exec (.bst k) s = .next t → t.b.toNat < 8) ∧
    (exec (.bxl k) s = .next t → t.b.toNat = s.b.toNat ^^^ k.toNat) ∧
    (exec (.bxc k) s = .next t → t.b.toNat = s.b.toNat ^^^ s.c.toNat)

/-- 10_state.md R17, R19: where `ip` goes: nowhere for a step that halts, faults or is terminal, to
`ip + 2 <= N`, or by a JNZ to its operand byte, at most 255. -/
def Obligations.TheInstructionPointerNeverWraps : Prop :=
  ∀ s t, step s = .next t →
    (t.status ≠ .running → t.ip = s.ip) ∧
    (t.status = .running → (t.ip = s.ip + 2 ∧ t.ip ≤ s.size) ∨
      (memRead s s.ip = .ok 3 ∧ ∃ lit, memRead s (s.ip + 1) = .ok lit ∧ t.ip = lit.toNat ∧ t.ip ≤ 255))

/-- 41_division.md R70: ADV strictly decreases A where the count and A are above 0, and applied repeatedly
brings A to 0, in at most 64 applications. -/
def Obligations.RepeatedAdvReachesZero : Prop :=
  ∀ s k v, combo s k = .ok v → 0 < v.toNat → v.toNat < 64 ∨ s.policies.largeShift = .zero →
    (0 < s.a.toNat → ∃ t, exec (.adv k) s = .next t ∧ t.a.toNat < s.a.toNat) ∧
    ∃ n ≤ 64, ∃ t, execTimes (.adv k) n s = .next t ∧ t.a = 0

/-! ### Encoding -/

/-- Decoding and encoding agree: a byte sequence decodes to an instruction and a rest exactly when it is
the instruction's two bytes and then the rest; it is rejected as unavailable exactly when it has fewer than
two bytes, and by its opcode byte exactly when that is 8 or more (30_encoding.md R41, R49). -/
def Obligations.DecodeAndEncodeAgree : Prop :=
  ∀ bytes,
    (∀ i rest, decode bytes = .ok (i, rest) ↔ bytes = encode i ++ rest) ∧
    (decode bytes = .error .pairUnavailable ↔ bytes.length < 2) ∧
    (∀ o, decode bytes = .error (.invalidOpcode o) ↔
      ∃ k rest, bytes = o :: k :: rest ∧ 8 ≤ o.toNat)

/-- 30_encoding.md R43: the 16-bit notation: every word with `W16[15:8] <= 7` is the table word of the one
instruction it decodes to, every other word decodes to none. -/
def Obligations.TableWordsAndInstructionsCorrespond : Prop :=
  ∀ w < 2 ^ 16,
    (w / 256 ≤ 7 → ∃ i, decodeTableWord 16 w = some i ∧ tableWord i = w ∧
      ∀ j, tableWord j = w → j = i) ∧
    (8 ≤ w / 256 → decodeTableWord 16 w = none)

/-- 30_encoding.md R50: one word of each row of the opcode table, written out from its match value. -/
def Obligations.WrittenOutWordsDecode : Prop :=
  decodeTableWord 16 0x0001 = some (.adv 1) ∧ decodeTableWord 16 0x01C8 = some (.bxl 200) ∧
  decodeTableWord 16 0x0204 = some (.bst 4) ∧ decodeTableWord 16 0x0300 = some (.jnz 0) ∧
  decodeTableWord 16 0x04FF = some (.bxc 255) ∧ decodeTableWord 16 0x0505 = some (.out 5) ∧
  decodeTableWord 16 0x0606 = some (.bdv 6) ∧ decodeTableWord 16 0x0705 = some (.cdv 5) ∧
  decodeTableWord 16 0x0900 = none

/-- 30_encoding.md R51: the illegal encodings fault and every other encoding is legal: a decoded instruction
raises `InvalidCombo` from every state where its operand is not legal for its mode, and from no state where
it is; an opcode byte 8 to 255 faults with any operand. -/
def Obligations.IllegalEncodingsFault : Prop :=
  (∀ i : Instr, i.wellFormed = false ↔ i.mode = .combo ∧ 7 ≤ i.operand.toNat) ∧
  (∀ i s, i.wellFormed = false → exec i s = .next (raiseFault s .invalidCombo)) ∧
  (∀ i s t, i.wellFormed = true → exec i s = .next t → t ≠ raiseFault s .invalidCombo) ∧
  (∀ s opcode, s.status = .running → s.ip + 1 < s.size → memRead s s.ip = .ok opcode →
    8 ≤ opcode.toNat → step s = .next (raiseFault s .invalidOpcode))

/-- Every instruction sequence, encoded and loaded, is fetched again pair by pair: at `ip = 2 * j` a Running
machine over that store executes instruction number `j` (30_encoding.md R41, 20_memory.md R31). -/
def Obligations.EncodedProgramsAreFetchedBack : Prop :=
  ∀ policies is a0 b0 c0 s,
    load policies { program := (encodeProgram is).map BitVec.toNat, a0 := a0, b0 := b0, c0 := c0 } = .ok s →
    ∀ j i u, is[j]? = some i → u.mem = s.mem → u.size = s.size → u.status = .running → u.ip = 2 * j →
      step u = exec i u

/-- The next step of a state in which an instruction's table word has been placed where the step fetches is
that instruction's execution, in that state. -/
def Obligations.APlacedInstructionIsTheNextToRun : Prop :=
  ∀ s w i, storeWf s → decodeTableWord 16 w = some i →
    step (s.withFetchWord 16 w) = exec i (s.withFetchWord 16 w) ∧ storeWf (s.withFetchWord 16 w)

/-! ### The host boundary -/

/-- 30_encoding.md R54, R55: exactly the texts of the template are accepted, each number one or more
decimal digits (leading zeros allowed), at least one program value, an optional last LF; and they parse to
the numbers written. -/
def Obligations.ExactlyTheTemplateTextsParse : Prop :=
  ∀ text x, parseText text = .ok x ↔
    ∃ da db dc dps, da ≠ [] ∧ db ≠ [] ∧ dc ≠ [] ∧ dps ≠ [] ∧ (∀ d ∈ dps, d ≠ []) ∧
      (text = programText (numberText da) (numberText db) (numberText dc) (dps.map numberText) ∨
        text = programText (numberText da) (numberText db) (numberText dc) (dps.map numberText) ++ ['\n']) ∧
      x = { program := dps.map numberValue, a0 := numberValue da, b0 := numberValue db,
            c0 := numberValue dc }

/-- 30_encoding.md R57: the class of error of a text whose first broken expectation is a register line, the
blank line or the program line's keyword (which class a text gets is the model's choice:
notes/assumptions/13.md). For each register line: absent or without its keyword, without a colon, with
another label, with anything but one space and one or more digits after the colon; then a text that ends
after a register line, one in which no blank line follows the third, one in which no program line follows
the blank line. -/
def Obligations.MalformedTextsNameTheExpectation : Prop :=
  ∀ (da db dc : List (Fin 10)) (rest tail : Text), da ≠ [] → db ≠ [] → dc ≠ [] →
    (tail = [] ∨ tail = lineEnd :: rest) →
    (∀ r,
      (dropStart registerKeyword rest = none →
        parseText (linesBefore (numberText da) (numberText db) r ++ rest) =
          .error (.missingRegisterLine r)) ∧
      (∀ label, ':' ∉ label → lineEnd ∉ label →
        parseText (linesBefore (numberText da) (numberText db) r ++ (registerKeyword ++ label) ++ tail) =
          .error (.missingRegisterLine r)) ∧
      (∀ label value, ':' ∉ label → lineEnd ∉ label → label ≠ [regLabel r] → lineEnd ∉ value →
        parseText (linesBefore (numberText da) (numberText db) r ++
          (registerKeyword ++ label ++ ':' :: value) ++ tail) = .error (.wrongRegisterLabel r)) ∧
      (∀ value, lineEnd ∉ value → (∀ ds, ds ≠ [] → value ≠ ' ' :: numberText ds) →
        parseText (linesBefore (numberText da) (numberText db) r ++
          (registerKeyword ++ regLabel r :: ':' :: value) ++ tail) = .error .nonNumericValue)) ∧
    parseText (registerLine .a (numberText da)) = .error (.missingRegisterLine .b) ∧
    parseText (linesBefore (numberText da) (numberText db) .b ++ registerLine .b (numberText db)) =
      .error (.missingRegisterLine .c) ∧
    parseText (registerLines (numberText da) (numberText db) (numberText dc)) = .error .missingBlankLine ∧
    (rest.head? ≠ some lineEnd →
      parseText (registerLines (numberText da) (numberText db) (numberText dc) ++ lineEnd :: rest) =
        .error .missingBlankLine) ∧
    (dropStart programKeyword rest = none →
      parseText (registerLines (numberText da) (numberText db) (numberText dc) ++
        lineEnd :: lineEnd :: rest) = .error .missingProgramLine)

/-- 30_encoding.md R58: the rendering of the Output Trace reads back as its values in order, and an empty
trace renders as the empty text. -/
def Obligations.ARenderedTraceReadsBack : Prop :=
  renderTrace [] = [] ∧
  (∀ T, T ≠ [] → readNumbers (splitText ',' (renderTrace T)) = .ok (T.map BitVec.toNat)) ∧
  ∀ T, renderTrace T = joinText ',' (T.map (fun v => [digitChar v.toNat]))

/-- 30_encoding.md R53: the assembly notation maps one to one onto the byte pairs. -/
def Obligations.AssemblyNotationReadsBack : Prop :=
  (∀ i, readAssembly (assemblyText i) = some i) ∧
  ∀ i j, assemblyText i = assemblyText j → encode i = encode j

/-- 60_exceptions.md R93, R95: a read gives back the instance as it is and its current ports (with out_valid
and out_value 0, since no step was made: the model's choice, notes/assumptions/17.md), an abort leaves it as
it is, a step request makes one step and gives its ports, and a load, direct or from a text, gives back the
new Running instance or the load error, as `load` and `loadText` say. -/
def Obligations.HostRequestsDoWhatTheTableSays : Prop :=
  ∀ s, serve s .read = .observed s (portsAfter s s) ∧
    (portsAfter s s).outValid = false ∧ (portsAfter s s).outValue = 0 ∧
    serve s .abort = .aborted s ∧
    (∃ t, step s = .next t ∧ serve s .step = .stepped t (portsAfter s t)) ∧
    (∀ policies args,
      (∃ t, load policies args = .ok t ∧ t.status = .running ∧ serve s (.load policies args) = .loaded t) ∨
      ∃ e, load policies args = .error e ∧ serve s (.load policies args) = .loadRefused e) ∧
    ∀ policies text,
      (∃ t, loadText policies text = .ok t ∧ t.status = .running ∧
        serve s (.loadText policies text) = .loaded t) ∨
      ∃ e, loadText policies text = .error e ∧ serve s (.loadText policies text) = .loadRefused e

/-- 30_encoding.md R57: the class of error of a text whose program line breaks an expectation (which class is
the model's choice: notes/assumptions/13.md): a program list that is not one or more numbers separated by
single commas (an empty value, a sign, a space), or any text after the program line's LF. -/
def Obligations.MalformedProgramListsAreNonNumeric : Prop :=
  ∀ (da db dc : List (Fin 10)) (values : Text), da ≠ [] → db ≠ [] → dc ≠ [] → lineEnd ∉ values →
    (∀ more, more ≠ [] →
      parseText (registerLines (numberText da) (numberText db) (numberText dc) ++
        lineEnd :: lineEnd :: (programKeyword ++ values) ++ lineEnd :: more) = .error .nonNumericValue) ∧
    ((∀ dps : List (List (Fin 10)), dps ≠ [] → (∀ d ∈ dps, d ≠ []) →
        values ≠ joinText ',' (dps.map numberText)) →
      parseText (registerLines (numberText da) (numberText db) (numberText dc) ++
        lineEnd :: lineEnd :: (programKeyword ++ values)) = .error .nonNumericValue ∧
      parseText (registerLines (numberText da) (numberText db) (numberText dc) ++
        lineEnd :: lineEnd :: (programKeyword ++ values) ++ [lineEnd]) = .error .nonNumericValue)
end

