-- ==== Sys2Proof/Laws/Decode.lean ====
section
/-! SUPPORT. What the decoder can answer, said once: the eight opcodes, and everything else rejected. -/

namespace Sys2Proof

/-- The router's decoding, inverted: the pair is the encoding of the instruction it gives. -/
theorem decodePair_eq_ok {opcode operand : Byte} {i : Instr} :
    decodePair opcode operand = .ok i ↔ opcode = opcodeByte i ∧ operand = i.operand := by
  constructor
  · intro h
    unfold decodePair at h
    split at h <;> cases h <;>
      exact ⟨BitVec.eq_of_toNat_eq (by assumption), rfl⟩
  · rintro ⟨rfl, rfl⟩
    cases i <;> rfl

/-- The router rejects exactly the opcode bytes 8 to 255 (30_encoding.md R49). -/
theorem decodePair_eq_error {opcode operand : Byte} {e : DecodeReject} :
    decodePair opcode operand = .error e ↔ 8 ≤ opcode.toNat ∧ e = .invalidOpcode opcode := by
  unfold decodePair
  split
  case h_9 => grind
  all_goals simp_all

/-- Either the pair is an instruction or its opcode byte is 8 or more. -/
theorem decodePair_cases (opcode operand : Byte) :
    (∃ i, decodePair opcode operand = .ok i) ∨
      (8 ≤ opcode.toNat ∧ decodePair opcode operand = .error (.invalidOpcode opcode)) := by
  cases h : decodePair opcode operand with
  | ok i => exact .inl ⟨i, rfl⟩
  | error e =>
    obtain ⟨h8, rfl⟩ := decodePair_eq_error.1 h
    exact .inr ⟨h8, rfl⟩

@[simp] theorem decodePair_encode (i : Instr) : decodePair (opcodeByte i) i.operand = .ok i :=
  decodePair_eq_ok.2 ⟨rfl, rfl⟩

theorem decode_cons_cons (opcode operand : Byte) (rest : List Byte) :
    decode (opcode :: operand :: rest) = (decodePair opcode operand).map (fun i => (i, rest)) := rfl

theorem opcodeByte_lt (i : Instr) : (opcodeByte i).toNat < 8 := by cases i <;> simp [opcodeByte]

theorem encode_length (i : Instr) : (encode i).length = 2 := rfl

theorem encodeProgram_length (is : List Instr) : (encodeProgram is).length = 2 * is.length := by
  induction is with
  | nil => rfl
  | cons i is ih =>
    rw [encodeProgram, List.length_append, encode_length, ih, List.length_cons]
    omega

/-- The bytes of the pair number `j` of an encoded sequence of instructions. -/
theorem encodeProgram_pair {is : List Instr} {j : Nat} {i : Instr} (h : is[j]? = some i) (d : Byte) :
    (encodeProgram is).getD (2 * j) d = opcodeByte i ∧
      (encodeProgram is).getD (2 * j + 1) d = i.operand := by
  induction is generalizing j with
  | nil => simp at h
  | cons i' is ih =>
    cases j with
    | zero =>
      simp only [List.getElem?_cons_zero, Option.some.injEq] at h
      subst h
      exact ⟨rfl, rfl⟩
    | succ j =>
      simp only [List.getElem?_cons_succ] at h
      exact ih h

end Sys2Proof
end

