-- ==== Sys2Proof/Laws/Host.lean ====
section
/-! SUPPORT. The unfoldings of a row of step requests and of the run to completion, one step at a time. -/

namespace Sys2Proof.Machine

theorem steps_zero (s : State) : steps 0 s = .next s := rfl

theorem steps_succ (k : Nat) (s : State) :
    steps (k + 1) s = match step s with
      | .next t => steps k t
      | .fault f => .fault f
      | .refused r => .refused r := rfl

theorem runToCompletion_zero (s : State) :
    runToCompletion 0 s = .next (if s.status = .running then .limitReached s else .ended s) := rfl

theorem runToCompletion_of_stopped {s : State} (h : s.status ≠ .running) (limit : Nat) :
    runToCompletion limit s = .next (.ended s) := by
  cases limit with
  | zero => rw [runToCompletion_zero, if_neg h]
  | succ limit => rw [runToCompletion, if_neg h]

theorem runToCompletion_of_running {s t : State} (h : s.status = .running) (ht : step s = .next t)
    (limit : Nat) : runToCompletion (limit + 1) s = runToCompletion limit t := by
  rw [runToCompletion, if_pos h, ht]

end Sys2Proof.Machine
end

