-- ==== Sys2Proof/Laws/State.lean ====
section
/-! SUPPORT. One lemma per field per update of the state, each true by unfolding the update once. -/

namespace Sys2Proof.Machine

/-! ### The write port -/

@[simp] theorem writePort_none (s : State) : writePort s none = s := rfl

@[simp] theorem writePort_mem (s : State) (w : Option (Reg × Word)) : (writePort s w).mem = s.mem := by
  rcases w with _ | ⟨r, v⟩ <;> first | rfl | (cases r <;> rfl)

@[simp] theorem writePort_size (s : State) (w : Option (Reg × Word)) : (writePort s w).size = s.size := by
  rcases w with _ | ⟨r, v⟩ <;> first | rfl | (cases r <;> rfl)

@[simp] theorem writePort_ip (s : State) (w : Option (Reg × Word)) : (writePort s w).ip = s.ip := by
  rcases w with _ | ⟨r, v⟩ <;> first | rfl | (cases r <;> rfl)

@[simp] theorem writePort_status (s : State) (w : Option (Reg × Word)) :
    (writePort s w).status = s.status := by
  rcases w with _ | ⟨r, v⟩ <;> first | rfl | (cases r <;> rfl)

@[simp] theorem writePort_fault (s : State) (w : Option (Reg × Word)) :
    (writePort s w).fault = s.fault := by
  rcases w with _ | ⟨r, v⟩ <;> first | rfl | (cases r <;> rfl)

@[simp] theorem writePort_trace (s : State) (w : Option (Reg × Word)) :
    (writePort s w).trace = s.trace := by
  rcases w with _ | ⟨r, v⟩ <;> first | rfl | (cases r <;> rfl)

@[simp] theorem writePort_policies (s : State) (w : Option (Reg × Word)) :
    (writePort s w).policies = s.policies := by
  rcases w with _ | ⟨r, v⟩ <;> first | rfl | (cases r <;> rfl)

@[simp] theorem writePort_a (s : State) (v : Word) : writePort s (some (.a, v)) = { s with a := v } := rfl

@[simp] theorem writePort_b (s : State) (v : Word) : writePort s (some (.b, v)) = { s with b := v } := rfl

@[simp] theorem writePort_c (s : State) (v : Word) : writePort s (some (.c, v)) = { s with c := v } := rfl

/-- A register read after a register write. -/
theorem readReg_writePort (s : State) (r q : Reg) (v : Word) :
    readReg (writePort s (some (r, v))) q = if q = r then v else readReg s q := by
  cases r <;> cases q <;> rfl

/-! ### The commit -/

@[simp] theorem commit_mem (s : State) (h : HandlerResult) : (commit s h).mem = s.mem := writePort_mem s h.wr

@[simp] theorem commit_size (s : State) (h : HandlerResult) : (commit s h).size = s.size := writePort_size s h.wr

@[simp] theorem commit_a (s : State) (h : HandlerResult) : (commit s h).a = (writePort s h.wr).a := rfl

@[simp] theorem commit_b (s : State) (h : HandlerResult) : (commit s h).b = (writePort s h.wr).b := rfl

@[simp] theorem commit_c (s : State) (h : HandlerResult) : (commit s h).c = (writePort s h.wr).c := rfl

@[simp] theorem commit_ip (s : State) (h : HandlerResult) : (commit s h).ip = h.nextIp := rfl

@[simp] theorem commit_status (s : State) (h : HandlerResult) : (commit s h).status = s.status :=
  writePort_status s h.wr

@[simp] theorem commit_fault (s : State) (h : HandlerResult) : (commit s h).fault = s.fault :=
  writePort_fault s h.wr

@[simp] theorem commit_trace (s : State) (h : HandlerResult) :
    (commit s h).trace = appendOut s.trace h.em := rfl

@[simp] theorem commit_policies (s : State) (h : HandlerResult) : (commit s h).policies = s.policies :=
  writePort_policies s h.wr

/-! ### Taking the fault -/

@[simp] theorem raiseFault_mem (s : State) (r : FaultReason) : (raiseFault s r).mem = s.mem := rfl

@[simp] theorem raiseFault_size (s : State) (r : FaultReason) : (raiseFault s r).size = s.size := rfl

@[simp] theorem raiseFault_a (s : State) (r : FaultReason) : (raiseFault s r).a = s.a := rfl

@[simp] theorem raiseFault_b (s : State) (r : FaultReason) : (raiseFault s r).b = s.b := rfl

@[simp] theorem raiseFault_c (s : State) (r : FaultReason) : (raiseFault s r).c = s.c := rfl

@[simp] theorem raiseFault_ip (s : State) (r : FaultReason) : (raiseFault s r).ip = s.ip := rfl

@[simp] theorem raiseFault_status (s : State) (r : FaultReason) : (raiseFault s r).status = .faulted := rfl

@[simp] theorem raiseFault_fault (s : State) (r : FaultReason) :
    (raiseFault s r).fault = some { reason := r, ip := s.ip } := rfl

@[simp] theorem raiseFault_trace (s : State) (r : FaultReason) : (raiseFault s r).trace = s.trace := rfl

@[simp] theorem raiseFault_policies (s : State) (r : FaultReason) :
    (raiseFault s r).policies = s.policies := rfl

/-! ### The halting step -/

@[simp] theorem haltStep_mem (s : State) : (haltStep s).mem = s.mem := rfl

@[simp] theorem haltStep_size (s : State) : (haltStep s).size = s.size := rfl

@[simp] theorem haltStep_a (s : State) : (haltStep s).a = s.a := rfl

@[simp] theorem haltStep_b (s : State) : (haltStep s).b = s.b := rfl

@[simp] theorem haltStep_c (s : State) : (haltStep s).c = s.c := rfl

@[simp] theorem haltStep_ip (s : State) : (haltStep s).ip = s.ip := rfl

@[simp] theorem haltStep_status (s : State) : (haltStep s).status = .halted := rfl

@[simp] theorem haltStep_fault (s : State) : (haltStep s).fault = s.fault := rfl

@[simp] theorem haltStep_trace (s : State) : (haltStep s).trace = s.trace := rfl

@[simp] theorem haltStep_policies (s : State) : (haltStep s).policies = s.policies := rfl

/-! ### Placing a pair -/

@[simp] theorem placePair_mem (s : State) (x y : Byte) :
    (placePair s x y).mem = memWrite (memWrite s.mem s.ip x) (s.ip + 1) y := rfl

@[simp] theorem placePair_size (s : State) (x y : Byte) :
    (placePair s x y).size = max s.size (s.ip + 2) := rfl

@[simp] theorem placePair_a (s : State) (x y : Byte) : (placePair s x y).a = s.a := rfl

@[simp] theorem placePair_b (s : State) (x y : Byte) : (placePair s x y).b = s.b := rfl

@[simp] theorem placePair_c (s : State) (x y : Byte) : (placePair s x y).c = s.c := rfl

@[simp] theorem placePair_ip (s : State) (x y : Byte) : (placePair s x y).ip = s.ip := rfl

@[simp] theorem placePair_status (s : State) (x y : Byte) : (placePair s x y).status = .running := rfl

@[simp] theorem placePair_fault (s : State) (x y : Byte) : (placePair s x y).fault = none := rfl

@[simp] theorem placePair_trace (s : State) (x y : Byte) : (placePair s x y).trace = s.trace := rfl

@[simp] theorem placePair_policies (s : State) (x y : Byte) :
    (placePair s x y).policies = s.policies := rfl

end Sys2Proof.Machine
end

