-- ==== Sys2Proof/Laws/Memory.lean ====
section
/-! SUPPORT. The laws of the Program Store: every operation keeps the canonical form, a read after a
write, and what the cells of a byte sequence read as. -/

namespace Sys2Proof.Machine

/-- What `memCons` puts in front: nothing, or one cell that is not the default. -/
theorem mem_of_memCons {addr : Nat} {v : Byte} {m : List Host.Cell} {x : Host.Cell}
    (h : x ∈ memCons addr v m) : (x = (addr, v) ∧ v ≠ memDefault) ∨ x ∈ m := by
  unfold memCons at h
  split at h
  · exact .inr h
  · rcases List.mem_cons.1 h with h | h
    · exact .inl ⟨h, ‹_›⟩
    · exact .inr h

theorem memCons_wf {addr : Nat} {v : Byte} {m : List Host.Cell} (hm : memWf m)
    (hlt : ∀ x ∈ m, addr < x.1) : memWf (memCons addr v m) := by
  unfold memCons
  split
  · exact hm
  · refine ⟨List.pairwise_cons.2 ⟨hlt, hm.1⟩, fun x hx => ?_⟩
    rcases List.mem_cons.1 hx with rfl | hx
    · assumption
    · exact hm.2 x hx

theorem memWf_tail {x : Host.Cell} {m : List Host.Cell} (h : memWf (x :: m)) : memWf m :=
  ⟨(List.pairwise_cons.1 h.1).2, fun y hy => h.2 y (List.mem_cons_of_mem _ hy)⟩

theorem memWf_head {x : Host.Cell} {m : List Host.Cell} (h : memWf (x :: m)) : ∀ y ∈ m, x.1 < y.1 :=
  (List.pairwise_cons.1 h.1).1

/-- The cells after a write are old cells, or the written one. -/
theorem mem_of_memWrite {m : List Host.Cell} {addr : Nat} {v : Byte} {x : Host.Cell}
    (h : x ∈ memWrite m addr v) : (x = (addr, v) ∧ v ≠ memDefault) ∨ x ∈ m := by
  induction m with
  | nil => exact mem_of_memCons h
  | cons y m ih =>
    unfold memWrite at h
    split at h
    · exact mem_of_memCons h
    · split at h
      · exact (mem_of_memCons h).imp id (List.mem_cons_of_mem _)
      · rcases List.mem_cons.1 h with rfl | h
        · exact .inr List.mem_cons_self
        · exact (ih h).imp id (List.mem_cons_of_mem _)

/-- A write keeps the canonical form. -/
theorem memWrite_wf {m : List Host.Cell} (addr : Nat) (v : Byte) (hm : memWf m) :
    memWf (memWrite m addr v) := by
  induction m with
  | nil => exact memCons_wf hm (by simp)
  | cons y m ih =>
    have hy := memWf_head hm
    unfold memWrite
    split
    · refine memCons_wf hm fun x hx => ?_
      rcases List.mem_cons.1 hx with rfl | hx
      · assumption
      · exact Nat.lt_trans ‹_› (hy x hx)
    · split
      · exact memCons_wf (memWf_tail hm) fun x hx => by have := hy x hx; omega
      · have ih := ih (memWf_tail hm)
        refine ⟨List.pairwise_cons.2 ⟨fun x hx => ?_, ih.1⟩, fun x hx => ?_⟩
        · rcases mem_of_memWrite hx with ⟨rfl, -⟩ | hx
          · simp only; omega
          · exact hy x hx
        · rcases List.mem_cons.1 hx with rfl | hx
          · exact hm.2 _ List.mem_cons_self
          · exact ih.2 x hx

/-- An index below every listed one reads as the default. -/
theorem memByte_of_lt {m : List Host.Cell} {addr : Nat} (h : ∀ x ∈ m, addr < x.1) :
    memByte m addr = memDefault := by
  induction m with
  | nil => rfl
  | cons y m ih =>
    have hy := h y List.mem_cons_self
    rw [memByte, if_neg (by omega), ih fun x hx => h x (List.mem_cons_of_mem _ hx)]

theorem memByte_memCons {m : List Host.Cell} {addr : Nat} {v : Byte} (h : ∀ x ∈ m, addr < x.1) (i : Nat) :
    memByte (memCons addr v m) i = if i = addr then v else memByte m i := by
  unfold memCons
  split
  · split
    · subst_vars; exact memByte_of_lt h
    · rfl
  · simp only [memByte, eq_comm]

/-- A read after a write: the written byte at its index, what was there before at every other. -/
theorem memByte_memWrite {m : List Host.Cell} (addr : Nat) (v : Byte) (hm : memWf m) (i : Nat) :
    memByte (memWrite m addr v) i = if i = addr then v else memByte m i := by
  induction m with
  | nil => exact memByte_memCons (by simp) i
  | cons y m ih =>
    have hy := memWf_head hm
    unfold memWrite
    split
    · refine memByte_memCons (fun x hx => ?_) i
      rcases List.mem_cons.1 hx with rfl | hx
      · assumption
      · exact Nat.lt_trans ‹_› (hy x hx)
    · split
      · subst_vars
        rw [memByte_memCons hy, memByte]
        grind
      · rw [memByte, memByte, ih (memWf_tail hm)]
        grind

/-- Every cell of a byte sequence lies in its range. -/
theorem mem_memOfBytes {start : Nat} {vs : List Byte} {x : Host.Cell} (h : x ∈ memOfBytes start vs) :
    start ≤ x.1 ∧ x.1 < start + vs.length ∧ x.2 ≠ memDefault := by
  induction vs generalizing start with
  | nil => cases h
  | cons v vs ih =>
    rcases mem_of_memCons h with ⟨rfl, hv⟩ | h
    · exact ⟨Nat.le_refl _, by simp, hv⟩
    · obtain ⟨hlo, hhi, hv⟩ := ih h
      simp only [List.length_cons]
      exact ⟨by omega, by omega, hv⟩

/-- The cells of a byte sequence are canonical. -/
theorem memOfBytes_wf (start : Nat) (vs : List Byte) : memWf (memOfBytes start vs) := by
  induction vs generalizing start with
  | nil => exact ⟨List.Pairwise.nil, by simp [memOfBytes]⟩
  | cons v vs ih => exact memCons_wf (ih _) fun x hx => (mem_memOfBytes hx).1

/-- The cells of a byte sequence read as the sequence. -/
theorem memByte_memOfBytes (start : Nat) (vs : List Byte) (i : Nat) :
    memByte (memOfBytes start vs) (start + i) = vs.getD i memDefault := by
  induction vs generalizing start i with
  | nil => rfl
  | cons v vs ih =>
    rw [memOfBytes, memByte_memCons fun x hx => (mem_memOfBytes hx).1]
    cases i with
    | zero => simp
    | succ i =>
      have := ih (start + 1) i
      rw [if_neg (by omega), show start + (i + 1) = start + 1 + i by omega, this]
      simp

/-- Placing a pair keeps the store's form. -/
theorem placePair_storeWf {s : State} (x y : Byte) (h : storeWf s) : storeWf (placePair s x y) := by
  refine ⟨memWrite_wf _ _ (memWrite_wf _ _ h.1), fun z hz => ?_⟩
  simp only [placePair_size]
  rcases mem_of_memWrite hz with ⟨rfl, -⟩ | hz
  · simp only; omega
  · rcases mem_of_memWrite hz with ⟨rfl, -⟩ | hz
    · simp only; omega
    · have := h.2 z hz; omega

/-- A loaded instance has a store in its canonical form. -/
theorem loadedState_storeWf (policies : Policies) (x : LoadArgs) : storeWf (loadedState policies x) :=
  ⟨memOfBytes_wf _ _, fun y hy => by
    have := mem_memOfBytes (start := 0) hy
    simp only [List.length_map] at this
    simpa [loadedState] using this.2.1⟩

/-- Every operation over the state that a step makes leaves every read of the Program Store as it was. -/
theorem memRead_congr {s t : State} (hm : t.mem = s.mem) (hn : t.size = s.size) (addr : Nat) :
    memRead t addr = memRead s addr := by
  unfold memRead
  rw [hm, hn]

end Sys2Proof.Machine
end

