-- ==== Sys2Proof/Laws/Load.lean ====
section
/-! SUPPORT. What an accepted load is, and what the Program Store of a loaded instance reads as. -/

namespace Sys2Proof.Machine

theorem inRange_iff (x : LoadArgs) :
    x.inRange = true ↔ (∀ v ∈ x.program, v < 256) ∧ x.a0 < 2 ^ 64 ∧ x.b0 < 2 ^ 64 ∧ x.c0 < 2 ^ 64 := by
  simp [LoadArgs.inRange, and_assoc, regWidth]

/-- An accepted load is in range, and gives the loaded state. -/
theorem load_eq_ok {policies : Policies} {x : LoadArgs} {s : State} (h : load policies x = .ok s) :
    x.inRange = true ∧ s = loadedState policies x := by
  unfold load at h
  split at h
  · cases h
    exact ⟨by assumption, rfl⟩
  · cases h

theorem memByte_loadedState (policies : Policies) (x : LoadArgs) {i : Nat} (hi : i < x.program.length) :
    memByte (loadedState policies x).mem i = BitVec.ofNat 8 x.program[i] := by
  have h := memByte_memOfBytes 0 (x.program.map (BitVec.ofNat 8)) i
  rw [Nat.zero_add] at h
  rw [loadedState, h, List.getD_eq_getElem?_getD]
  simp [hi]

end Sys2Proof.Machine
end

