-- ==== Sys2Proof/Laws/Operands.lean ====
section
/-! SUPPORT. The operand resolver and the division law, in the naturals the spec writes them in. -/

namespace Sys2Proof.Machine

@[simp] theorem zextW_toNat (v : Byte) : (zextW v).toNat = v.toNat := by
  have := v.isLt
  simp only [zextW, BitVec.toNat_setWidth]
  omega

@[simp] theorem literal_toNat (v : Byte) : (literal v).toNat = v.toNat := zextW_toNat v

@[simp] theorem low3_toNat (v : Word) : (low3 v).toNat = v.toNat % 8 := by simp [low3]

@[simp] theorem zext3_toNat (v : OutVal) : (zext3 v).toNat = v.toNat := by
  have := v.isLt
  simp only [zext3, BitVec.toNat_setWidth]
  omega

theorem comboValid_iff (k : Byte) : comboValid k = true ↔ k.toNat ≤ 6 := by
  unfold comboValid
  exact decide_eq_true_iff

/-- A legal combo operand resolves (30_encoding.md R47). -/
theorem combo_of_valid {s : State} {k : Byte} (h : k.toNat ≤ 6) : ∃ v, combo s k = .ok v :=
  ⟨comboValue s k, if_pos ((comboValid_iff k).2 h)⟩

/-- Every other combo operand raises `InvalidCombo` (30_encoding.md R46). -/
theorem combo_of_invalid {s : State} {k : Byte} (h : 7 ≤ k.toNat) : combo s k = .error .invalidCombo :=
  if_neg (by rw [comboValid_iff]; omega)

/-- The multiplexer's value for an operand 0 to 3. -/
theorem comboValue_of_le {s : State} {k : Byte} (h : k.toNat ≤ 3) : comboValue s k = zextW k := by
  have hi : indexedReg k.toNat = none := by
    unfold indexedReg
    split <;> first | omega | rfl
  rw [comboValue, hi]
  apply BitVec.eq_of_toNat_eq
  simp only [BitVec.toNat_setWidth, zextW_toNat]
  omega

/-- The values a combo operand can resolve to. -/
theorem combo_cases (s : State) (k : Byte) :
    (k.toNat ≤ 3 ∧ combo s k = .ok (zextW k)) ∨ (k.toNat = 4 ∧ combo s k = .ok s.a) ∨
      (k.toNat = 5 ∧ combo s k = .ok s.b) ∨ (k.toNat = 6 ∧ combo s k = .ok s.c) ∨
      (7 ≤ k.toNat ∧ combo s k = .error .invalidCombo) := by
  by_cases h7 : 7 ≤ k.toNat
  · exact .inr (.inr (.inr (.inr ⟨h7, combo_of_invalid h7⟩)))
  · have hc : combo s k = .ok (comboValue s k) := if_pos ((comboValid_iff k).2 (by omega))
    by_cases h3 : k.toNat ≤ 3
    · exact .inl ⟨h3, by rw [hc, comboValue_of_le h3]⟩
    · have hv : comboValue s k = match indexedReg k.toNat with
          | some r => readReg s r
          | none => (k.setWidth 2).setWidth 64 := rfl
      obtain h | h | h : k.toNat = 4 ∨ k.toNat = 5 ∨ k.toNat = 6 := by omega
      · exact .inr (.inl ⟨h, by rw [hc, hv, h]; rfl⟩)
      · exact .inr (.inr (.inl ⟨h, by rw [hc, hv, h]; rfl⟩))
      · exact .inr (.inr (.inr (.inl ⟨h, by rw [hc, hv, h]; rfl⟩)))

/-- The resolver raises no other fault. -/
theorem combo_error {s : State} {k : Byte} {r : FaultReason} (h : combo s k = .error r) :
    7 ≤ k.toNat ∧ r = .invalidCombo := by
  rcases combo_cases s k with h' | h' | h' | h' | h' <;> simp_all

theorem combo_ok {s : State} {k : Byte} {v : Word} (h : combo s k = .ok v) : k.toNat ≤ 6 := by
  by_contra hk
  rw [combo_of_invalid (by omega)] at h
  cases h

/-- A count below the width shifts, whatever the policy. -/
theorem shr_of_lt {policy : LargeShiftPolicy} {x sh : Word} (h : sh.toNat < 64) :
    shr policy x sh = .ok (x >>> sh.toNat) := by rw [shr, if_pos h]

/-- A count of the width or more, as the policy says. -/
theorem shr_of_ge {policy : LargeShiftPolicy} {x sh : Word} (h : 64 ≤ sh.toNat) :
    shr policy x sh = largeShift policy := by
  rw [shr, if_neg (by simpa using h)]

theorem two_pow_ge_of_word {x : Word} {n : Nat} (h : 64 ≤ n) : x.toNat / 2 ^ n = 0 :=
  Nat.div_eq_of_lt (Nat.lt_of_lt_of_le x.isLt (Nat.pow_le_pow_right (by decide) h))

/-- The division law (41_division.md R69): where it raises nothing, the exact quotient. -/
theorem shr_ok {policy : LargeShiftPolicy} {x sh : Word} (h : sh.toNat < 64 ∨ policy = .zero) :
    shr policy x sh = .ok (BitVec.ofNat 64 (x.toNat / 2 ^ sh.toNat)) := by
  by_cases hs : sh.toNat < 64
  · rw [shr_of_lt hs]
    congr 1
    apply BitVec.eq_of_toNat_eq
    have : x.toNat / 2 ^ sh.toNat ≤ x.toNat := Nat.div_le_self _ _
    rw [BitVec.toNat_ushiftRight, Nat.shiftRight_eq_div_pow, BitVec.toNat_ofNat,
      Nat.mod_eq_of_lt (Nat.lt_of_le_of_lt this x.isLt)]
  · obtain rfl : policy = .zero := h.resolve_left hs
    rw [shr_of_ge (by omega), two_pow_ge_of_word (by omega)]
    rfl

/-- It raises only `ShiftOverflow`, for a count of 64 or more under the fault policy. -/
theorem shr_error {policy : LargeShiftPolicy} {x sh : Word} {r : FaultReason}
    (h : shr policy x sh = .error r) : 64 ≤ sh.toNat ∧ policy = .fault ∧ r = .shiftOverflow := by
  by_cases hs : sh.toNat < 64
  · rw [shr_of_lt hs] at h; cases h
  · rw [shr_of_ge (by omega)] at h
    cases policy
    · cases h
    · cases h
      exact ⟨by omega, rfl, rfl⟩

/-- The quotient as a natural number never exceeds the dividend (10_state.md R16). -/
theorem quotient_toNat (x : Word) (n : Nat) :
    (BitVec.ofNat 64 (x.toNat / 2 ^ n)).toNat = x.toNat / 2 ^ n := by
  rw [BitVec.toNat_ofNat, Nat.mod_eq_of_lt (Nat.lt_of_le_of_lt (Nat.div_le_self _ _) x.isLt)]

/-- A division handler's quotient, once its operand resolves. -/
theorem divideA_of_combo {s : State} {k : Byte} {v : Word} (h : combo s k = .ok v) :
    divideA s k = shr s.policies.largeShift s.a v := by rw [divideA, h]

theorem divideA_of_invalid {s : State} {k : Byte} (h : 7 ≤ k.toNat) :
    divideA s k = .error .invalidCombo := by rw [divideA, combo_of_invalid h]

/-- Why a division handler's quotient can fail: the operand, or the count under the fault policy. -/
theorem divideA_error {s : State} {k : Byte} {r : FaultReason} (h : divideA s k = .error r) :
    (7 ≤ k.toNat ∧ r = .invalidCombo) ∨
      (r = .shiftOverflow ∧ s.policies.largeShift = .fault ∧ ∃ v, combo s k = .ok v ∧ 64 ≤ v.toNat) := by
  cases hc : combo s k with
  | error e =>
    rw [divideA, hc] at h
    cases h
    exact .inl (combo_error hc)
  | ok v =>
    rw [divideA_of_combo hc] at h
    obtain ⟨h64, hp, hr⟩ := shr_error h
    exact .inr ⟨hr, hp, v, rfl, h64⟩

end Sys2Proof.Machine
end

