-- ==== Sys2Proof/Laws/PerInstr.lean ====
section
/-! SUPPORT. The statement made per instruction: an instruction's 16-bit table word (30_encoding.md R43)
decodes to the instruction, whatever its operand byte. -/

namespace Sys2Proof.Laws.Wire

/-- The table word of an instruction has 16 bits and decodes to it. -/
def Statement (i : Instr) : Prop := tableWord i < 2 ^ 16 ∧ decodeTableWord 16 (tableWord i) = some i

/-- A word with an opcode byte below 8 decodes as its two bytes do. -/
theorem word_of_pair {i : Instr} {opcode operand : Byte}
    (h : decodePair opcode operand = .ok i) :
    opcode.toNat * 256 + operand.toNat < 2 ^ 16 ∧
      decodeTableWord 16 (opcode.toNat * 256 + operand.toNat) = some i := by
  have ho := opcode.isLt
  have hk := operand.isLt
  have hw : opcode.toNat * 256 + operand.toNat < 2 ^ 16 := by omega
  have h1 : BitVec.ofNat 8 ((opcode.toNat * 256 + operand.toNat) % 2 ^ 16 / 256) = opcode := by
    apply BitVec.eq_of_toNat_eq
    rw [BitVec.toNat_ofNat]
    omega
  have h2 : BitVec.ofNat 8 ((opcode.toNat * 256 + operand.toNat) % 2 ^ 16) = operand := by
    apply BitVec.eq_of_toNat_eq
    rw [BitVec.toNat_ofNat]
    omega
  refine ⟨hw, ?_⟩
  rw [decodeTableWord, tableWordBytes, h1, h2, decode, h]
  rfl

theorem adv (k : Byte) : Statement (.adv k) := word_of_pair (opcode := 0) (operand := k) rfl

theorem bxl (lit : Byte) : Statement (.bxl lit) := word_of_pair (opcode := 1) (operand := lit) rfl

theorem bst (k : Byte) : Statement (.bst k) := word_of_pair (opcode := 2) (operand := k) rfl

theorem jnz (lit : Byte) : Statement (.jnz lit) := word_of_pair (opcode := 3) (operand := lit) rfl

theorem bxc (unused : Byte) : Statement (.bxc unused) := word_of_pair (opcode := 4) (operand := unused) rfl

theorem out (k : Byte) : Statement (.out k) := word_of_pair (opcode := 5) (operand := k) rfl

theorem bdv (k : Byte) : Statement (.bdv k) := word_of_pair (opcode := 6) (operand := k) rfl

theorem cdv (k : Byte) : Statement (.cdv k) := word_of_pair (opcode := 7) (operand := k) rfl

end Sys2Proof.Laws.Wire
end

