-- ==== Sys2Proof/Laws/Step.lean ====
section
/-! SUPPORT. What an execution and a step can do, said once: every execution ends in a commit or in the
fault, and a step is one of five cases. -/

namespace Sys2Proof.Machine

@[simp] theorem finish_ok (s : State) (h : HandlerResult) : finish s (.ok h) = .next (commit s h) := rfl

@[simp] theorem finish_error (s : State) (r : FaultReason) :
    finish s (.error r) = .next (raiseFault s r) := rfl

/-- What the eight handlers hand back (40_execution_engine.md R60): the register write, `ip` and emit of
each, or the fault it raises. -/
def handlerResult (i : Instr) (s : State) : Except FaultReason HandlerResult :=
  match i with
  | .adv k => advHandler k s
  | .bxl lit => bxlHandler lit s
  | .bst k => bstHandler k s
  | .jnz lit => jnzHandler lit s
  | .bxc _ => bxcHandler s
  | .out k => outHandler k s
  | .bdv k => bdvHandler k s
  | .cdv k => cdvHandler k s

/-- Every meaning is the end of a step over its handler's result. -/
theorem exec_eq_finish (i : Instr) (s : State) : exec i s = finish s (handlerResult i s) := by
  cases i <;> rfl

/-- An execution always answers a next state: a commit or the fault. -/
theorem exec_next_iff {i : Instr} {s t : State} :
    exec i s = .next t ↔
      (∃ h, handlerResult i s = .ok h ∧ t = commit s h) ∨
        (∃ r, handlerResult i s = .error r ∧ t = raiseFault s r) := by
  rw [exec_eq_finish]
  cases handlerResult i s with
  | ok h => simp [eq_comm]
  | error r => simp [eq_comm]

theorem exec_total (i : Instr) (s : State) : ∃ t, exec i s = .next t := by
  rw [exec_eq_finish]
  cases handlerResult i s with
  | ok h => exact ⟨_, rfl⟩
  | error r => exact ⟨_, rfl⟩

/-- The shape of a handler's result: what each instruction may write, where it goes, what it emits. -/
theorem handlerResult_ok {i : Instr} {s : State} {h : HandlerResult} (hh : handlerResult i s = .ok h) :
    (∃ k v, i = .adv k ∧ h = writeResult s .a v ∧ divideA s k = .ok v) ∨
    (∃ lit, i = .bxl lit ∧ h = writeResult s .b (s.b ^^^ literal lit)) ∨
    (∃ k v, i = .bst k ∧ h = writeResult s .b (zext3 (low3 v)) ∧ combo s k = .ok v) ∨
    (∃ lit target, i = .jnz lit ∧ h = { wr := none, nextIp := target, em := none } ∧
      jumpIp s lit = .ok target) ∨
    (∃ x, i = .bxc x ∧ h = writeResult s .b (s.b ^^^ s.c)) ∨
    (∃ k v, i = .out k ∧ h = { wr := none, nextIp := s.ip + 2, em := some (low3 v) } ∧
      combo s k = .ok v) ∨
    (∃ k v, i = .bdv k ∧ h = writeResult s .b v ∧ divideA s k = .ok v) ∨
    (∃ k v, i = .cdv k ∧ h = writeResult s .c v ∧ divideA s k = .ok v) := by
  have key : ∀ {α : Type} {e : Except FaultReason α} {f : α → HandlerResult},
      e.map f = .ok h → ∃ v, e = .ok v ∧ h = f v := by
    rintro α (r | v) f hf
    · cases hf
    · cases hf; exact ⟨v, rfl, rfl⟩
  cases i with
  | adv k => obtain ⟨v, hv, rfl⟩ := key hh; exact .inl ⟨k, v, rfl, rfl, hv⟩
  | bxl lit => cases hh; exact .inr (.inl ⟨lit, rfl, rfl⟩)
  | bst k => obtain ⟨v, hv, rfl⟩ := key hh; exact .inr (.inr (.inl ⟨k, v, rfl, rfl, hv⟩))
  | jnz lit =>
    obtain ⟨v, hv, rfl⟩ := key hh
    exact .inr (.inr (.inr (.inl ⟨lit, v, rfl, rfl, hv⟩)))
  | bxc x => cases hh; exact .inr (.inr (.inr (.inr (.inl ⟨x, rfl, rfl⟩))))
  | out k =>
    obtain ⟨v, hv, rfl⟩ := key hh
    exact .inr (.inr (.inr (.inr (.inr (.inl ⟨k, v, rfl, rfl, hv⟩)))))
  | bdv k =>
    obtain ⟨v, hv, rfl⟩ := key hh
    exact .inr (.inr (.inr (.inr (.inr (.inr (.inl ⟨k, v, rfl, rfl, hv⟩))))))
  | cdv k =>
    obtain ⟨v, hv, rfl⟩ := key hh
    exact .inr (.inr (.inr (.inr (.inr (.inr (.inr ⟨k, v, rfl, rfl, hv⟩))))))

/-- The next `ip` of a JNZ, by cases (43_control.md R77, R79). -/
theorem jumpIp_cases (s : State) (lit : Byte) :
    ((s.a = 0 ∨ lit.toNat = s.ip) ∧ jumpIp s lit = .ok (s.ip + 2)) ∨
    (s.a ≠ 0 ∧ lit.toNat ≠ s.ip ∧ lit.toNat % 2 = 1 ∧ s.policies.oddTarget = .fault ∧
      jumpIp s lit = .error .misalignedTarget) ∨
    (s.a ≠ 0 ∧ lit.toNat ≠ s.ip ∧ (lit.toNat % 2 = 0 ∨ s.policies.oddTarget = .execute) ∧
      jumpIp s lit = .ok lit.toNat) := by
  simp only [jumpIp, literal_toNat, aIsZero, beq_iff_eq, nextPair]
  by_cases ha : s.a = 0
  · simp [ha]
  · by_cases hi : lit.toNat = s.ip
    · simp [hi]
    · by_cases ho : lit.toNat % 2 = 1 <;> cases hp : s.policies.oddTarget <;> simp_all

theorem map_eq_error {α β : Type} {e : Except FaultReason α} {f : α → β} {r : FaultReason}
    (h : e.map f = .error r) : e = .error r := by
  cases e <;> cases h
  rfl

/-- Every fault a handler can raise, with its cause (60_exceptions.md R83). -/
theorem handlerResult_error {i : Instr} {s : State} {r : FaultReason}
    (h : handlerResult i s = .error r) :
    (i.mode = .combo ∧ 7 ≤ i.operand.toNat ∧ r = .invalidCombo) ∨
    ((opcodeByte i).toNat ∈ [0, 6, 7] ∧ r = .shiftOverflow ∧ s.policies.largeShift = .fault ∧
      ∃ v, combo s i.operand = .ok v ∧ 64 ≤ v.toNat) ∨
    (opcodeByte i = 3 ∧ r = .misalignedTarget ∧ s.a ≠ 0 ∧ i.operand.toNat ≠ s.ip ∧
      i.operand.toNat % 2 = 1 ∧ s.policies.oddTarget = .fault) := by
  cases i with
  | adv k =>
    rcases divideA_error (map_eq_error h) with ⟨h7, hr⟩ | hs
    · exact .inl ⟨rfl, h7, hr⟩
    · exact .inr (.inl ⟨by simp [opcodeByte], hs⟩)
  | bdv k =>
    rcases divideA_error (map_eq_error h) with ⟨h7, hr⟩ | hs
    · exact .inl ⟨rfl, h7, hr⟩
    · exact .inr (.inl ⟨by simp [opcodeByte], hs⟩)
  | cdv k =>
    rcases divideA_error (map_eq_error h) with ⟨h7, hr⟩ | hs
    · exact .inl ⟨rfl, h7, hr⟩
    · exact .inr (.inl ⟨by simp [opcodeByte], hs⟩)
  | bst k => exact .inl ⟨rfl, combo_error (map_eq_error h)⟩
  | out k => exact .inl ⟨rfl, combo_error (map_eq_error h)⟩
  | bxl lit => cases h
  | bxc x => cases h
  | jnz lit =>
    have he := map_eq_error h
    rcases jumpIp_cases s lit with ⟨-, hj⟩ | ⟨ha, hi, ho, hp, hj⟩ | ⟨-, -, -, hj⟩ <;> rw [hj] at he <;> cases he
    exact .inr (.inr ⟨rfl, rfl, ha, hi, ho, hp⟩)

/-- The `available` bit (40_execution_engine.md R61). -/
theorem pairUnavailable_iff (s : State) : pairUnavailable s = true ↔ s.size ≤ s.ip + 1 := by
  unfold pairUnavailable
  exact decide_eq_true_iff

theorem memRead_of_lt {s : State} {addr : Nat} (h : addr < s.size) :
    memRead s addr = .ok (memByte s.mem addr) := by
  unfold memRead
  exact if_pos h

/-- A read outside the Program Store has no value (20_memory.md R30). -/
theorem memRead_of_ge {s : State} {addr : Nat} (h : s.size ≤ addr) :
    memRead s addr = .error (.outsideStore addr) := by
  unfold memRead
  exact if_neg (by omega)

theorem step_of_running {s : State} (hr : s.status = .running) : step s = runningStep s := by
  unfold step engineStep
  split <;> simp_all

/-- The fetched pair of a Running state with one available. -/
theorem step_of_available {s : State} (hr : s.status = .running) (ha : s.ip + 1 < s.size) :
    step s = dispatchPair s (memByte s.mem s.ip) (memByte s.mem (s.ip + 1)) := by
  have hu : ¬ pairUnavailable s = true := by rw [pairUnavailable_iff]; omega
  rw [step_of_running hr, runningStep, if_neg hu, fetchAndDispatch, memRead_of_lt (by omega),
    memRead_of_lt ha]

/-- The step of a Running state whose two bytes at `ip` can be read. -/
theorem step_of_pair {s : State} {opcode operand : Byte} (hr : s.status = .running)
    (h1 : memRead s s.ip = .ok opcode) (h2 : memRead s (s.ip + 1) = .ok operand) :
    s.ip + 1 < s.size ∧ memByte s.mem s.ip = opcode ∧ memByte s.mem (s.ip + 1) = operand ∧
      step s = dispatchPair s opcode operand := by
  have ha : s.ip + 1 < s.size := by
    by_contra hc
    rw [memRead_of_ge (by omega)] at h2
    cases h2
  rw [memRead_of_lt (by omega)] at h1
  rw [memRead_of_lt ha] at h2
  cases h1
  cases h2
  exact ⟨ha, rfl, rfl, step_of_available hr ha⟩

theorem step_of_unavailable {s : State} (hr : s.status = .running) (ha : s.size ≤ s.ip + 1) :
    step s = .next (haltStep s) := by
  rw [step_of_running hr, runningStep, if_pos ((pairUnavailable_iff s).2 ha)]

theorem step_of_stopped {s : State} (hr : s.status ≠ .running) : step s = .next s := by
  simp only [step, engineStep]
  split <;> simp_all

/-- Everything a step can do (40_execution_engine.md R60): stay where it is terminal, halt, take
`InvalidOpcode`, or execute the fetched instruction. -/
theorem step_cases (s : State) :
    (s.status ≠ .running ∧ step s = .next s) ∨
    (s.status = .running ∧ s.size ≤ s.ip + 1 ∧ step s = .next (haltStep s)) ∨
    (s.status = .running ∧ s.ip + 1 < s.size ∧ 8 ≤ (memByte s.mem s.ip).toNat ∧
      step s = .next (raiseFault s .invalidOpcode)) ∨
    (s.status = .running ∧ s.ip + 1 < s.size ∧ ∃ i, memByte s.mem s.ip = opcodeByte i ∧
      memByte s.mem (s.ip + 1) = i.operand ∧ step s = exec i s) := by
  by_cases hr : s.status = .running
  · by_cases ha : s.ip + 1 < s.size
    · rcases decodePair_cases (memByte s.mem s.ip) (memByte s.mem (s.ip + 1)) with ⟨i, hi⟩ | ⟨h8, he⟩
      · refine .inr (.inr (.inr ⟨hr, ha, i, (decodePair_eq_ok.1 hi).1, (decodePair_eq_ok.1 hi).2, ?_⟩))
        rw [step_of_available hr ha, dispatchPair, hi]
      · refine .inr (.inr (.inl ⟨hr, ha, h8, ?_⟩))
        rw [step_of_available hr ha, dispatchPair, he]
    · exact .inr (.inl ⟨hr, by omega, step_of_unavailable hr (by omega)⟩)
  · exact .inl ⟨hr, step_of_stopped hr⟩

end Sys2Proof.Machine
end

