-- ==== Sys2Proof/Laws/Text.lean ====
section
/-! SUPPORT. The laws of the text forms: digits and numbers, splitting and joining, and the lines of the
program representation. -/

namespace Sys2Proof.Machine

/-! ### Digits and numbers -/

theorem digitChar_toNat (d : Fin 10) : (digitChar d.val).toNat = 48 + d.val := by
  revert d; decide

@[simp] theorem digitValue_digitChar (d : Fin 10) : digitValue (digitChar d.val) = some d.val := by
  rw [digitValue, digitChar_toNat, if_pos ⟨by omega, by omega⟩]
  simp

/-- A character has a digit value exactly when it is that digit's character. -/
theorem digitValue_eq_some {ch : Char} {n : Nat} (h : digitValue ch = some n) :
    ∃ d : Fin 10, ch = digitChar d.val ∧ n = d.val := by
  unfold digitValue at h
  split at h
  · cases h
    refine ⟨⟨ch.toNat - 48, by omega⟩, ?_, rfl⟩
    simp only [digitChar]
    rw [show 48 + (ch.toNat - 48) = ch.toNat by omega]
    exact (Char.ofNat_toNat ch).symm
  · cases h

theorem digitChar_ne (d : Fin 10) {ch : Char} (h : digitValue ch = none) : digitChar d.val ≠ ch := by
  rintro rfl
  rw [digitValue_digitChar] at h
  cases h

theorem not_mem_numberText {ch : Char} (h : digitValue ch = none) (ds : List (Fin 10)) :
    ch ∉ numberText ds := by
  intro hm
  obtain ⟨d, -, hd⟩ := List.mem_map.1 hm
  exact digitChar_ne d h hd

/-- Reading digits folds their values on to the number already read. -/
theorem readDigits_numberText (n : Nat) (ds : List (Fin 10)) :
    readDigits n (numberText ds) = some (ds.foldl (fun m d => m * 10 + d.val) n) := by
  induction ds generalizing n with
  | nil => rfl
  | cons d ds ih =>
    rw [numberText, List.map_cons, readDigits, digitValue_digitChar]
    exact ih _

/-- What can be read as digits is the text of some digits. -/
theorem readDigits_eq_some {n v : Nat} {t : Text} (h : readDigits n t = some v) :
    ∃ ds : List (Fin 10), t = numberText ds ∧ v = ds.foldl (fun m d => m * 10 + d.val) n := by
  induction t generalizing n with
  | nil => cases h; exact ⟨[], rfl, rfl⟩
  | cons ch t ih =>
    unfold readDigits at h
    split at h
    · rename_i d hd
      obtain ⟨e, rfl, rfl⟩ := digitValue_eq_some hd
      obtain ⟨ds, rfl, rfl⟩ := ih h
      exact ⟨e :: ds, rfl, rfl⟩
    · cases h

theorem readNumber_numberText {ds : List (Fin 10)} (h : ds ≠ []) :
    readNumber (numberText ds) = .ok (numberValue ds) := by
  cases ds with
  | nil => exact absurd rfl h
  | cons d ds =>
    have := readDigits_numberText 0 (d :: ds)
    rw [numberText, List.map_cons] at *
    rw [readNumber, this]
    rfl

/-- A number is read exactly from one or more digits (30_encoding.md R55). -/
theorem readNumber_eq_ok {t : Text} {v : Nat} (h : readNumber t = .ok v) :
    ∃ ds : List (Fin 10), ds ≠ [] ∧ t = numberText ds ∧ v = numberValue ds := by
  cases t with
  | nil => cases h
  | cons ch t =>
    rw [readNumber] at h
    cases hn : readDigits 0 (ch :: t) with
    | none => rw [hn] at h; cases h
    | some n =>
      rw [hn] at h
      cases h
      obtain ⟨ds, hds, rfl⟩ := readDigits_eq_some hn
      refine ⟨ds, ?_, hds, rfl⟩
      rintro rfl
      cases hds

theorem readNumbers_numberText {dss : List (List (Fin 10))} (h : ∀ ds ∈ dss, ds ≠ []) :
    readNumbers (dss.map numberText) = .ok (dss.map numberValue) := by
  induction dss with
  | nil => rfl
  | cons ds dss ih =>
    rw [List.map_cons, readNumbers, readNumber_numberText (h ds List.mem_cons_self),
      ih fun e he => h e (List.mem_cons_of_mem _ he)]
    rfl

theorem readNumbers_eq_ok {ts : List Text} {vs : List Nat} (h : readNumbers ts = .ok vs) :
    ∃ dss : List (List (Fin 10)), (∀ ds ∈ dss, ds ≠ []) ∧ ts = dss.map numberText ∧
      vs = dss.map numberValue := by
  induction ts generalizing vs with
  | nil => cases h; exact ⟨[], by simp, rfl, rfl⟩
  | cons t ts ih =>
    unfold readNumbers at h
    split at h
    · cases h
    · rename_i n hn
      split at h
      · cases h
      · rename_i ns hns
        cases h
        obtain ⟨ds, hne, rfl, rfl⟩ := readNumber_eq_ok hn
        obtain ⟨dss, hall, rfl, rfl⟩ := ih hns
        refine ⟨ds :: dss, fun e he => ?_, rfl, rfl⟩
        rcases List.mem_cons.1 he with rfl | he
        · exact hne
        · exact hall e he

/-! ### Splitting and joining -/

theorem dropStart_append (ys xs : Text) : dropStart ys (ys ++ xs) = some xs := by
  induction ys with
  | nil => rfl
  | cons y ys ih => rw [List.cons_append, dropStart, if_pos rfl, ih]

theorem dropStart_eq_some {ys t xs : Text} (h : dropStart ys t = some xs) : t = ys ++ xs := by
  induction ys generalizing t with
  | nil => cases h; rfl
  | cons y ys ih =>
    cases t with
    | nil => cases h
    | cons x t =>
      rw [dropStart] at h
      split at h
      · rename_i hxy
        rw [ih h, hxy]
        rfl
      · cases h

theorem breakText_append {sep : Char} {xs : Text} (h : sep ∉ xs) (ys : Text) :
    breakText sep (xs ++ sep :: ys) = some (xs, ys) := by
  induction xs with
  | nil => rw [List.nil_append, breakText, if_pos rfl]
  | cons x xs ih =>
    have hx : x ≠ sep := fun he => h (he ▸ List.mem_cons_self)
    rw [List.cons_append, breakText, if_neg hx, ih fun hm => h (List.mem_cons_of_mem _ hm)]
    rfl

theorem breakText_eq_some {sep : Char} {t xs ys : Text} (h : breakText sep t = some (xs, ys)) :
    t = xs ++ sep :: ys := by
  induction t generalizing xs with
  | nil => cases h
  | cons x t ih =>
    rw [breakText] at h
    split at h
    · rename_i hx
      cases h
      rw [hx]
      rfl
    · cases hb : breakText sep t with
      | none => rw [hb] at h; cases h
      | some p =>
        rw [hb] at h
        cases h
        rw [ih (xs := p.1) hb]
        rfl

theorem splitText_ne_nil (sep : Char) (t : Text) : splitText sep t ≠ [] := by
  cases t with
  | nil => exact List.cons_ne_nil _ _
  | cons x t =>
    rw [splitText]
    split
    · exact List.cons_ne_nil _ _
    · split <;> exact List.cons_ne_nil _ _

theorem splitText_of_not_mem {sep : Char} {t : Text} (h : sep ∉ t) : splitText sep t = [t] := by
  induction t with
  | nil => rfl
  | cons x t ih =>
    have hx : x ≠ sep := fun he => h (he ▸ List.mem_cons_self)
    rw [splitText, if_neg hx, ih fun hm => h (List.mem_cons_of_mem _ hm)]

theorem splitText_append {sep : Char} {piece : Text} (h : sep ∉ piece) (t : Text) :
    splitText sep (piece ++ sep :: t) = piece :: splitText sep t := by
  induction piece with
  | nil => rw [List.nil_append, splitText, if_pos rfl]
  | cons x piece ih =>
    have hx : x ≠ sep := fun he => h (he ▸ List.mem_cons_self)
    rw [List.cons_append, splitText, if_neg hx, ih fun hm => h (List.mem_cons_of_mem _ hm)]

/-- Joining what was split gives the text back. -/
theorem joinText_splitText (sep : Char) (t : Text) : joinText sep (splitText sep t) = t := by
  induction t with
  | nil => rfl
  | cons x t ih =>
    rw [splitText]
    split
    · rename_i hx
      cases hs : splitText sep t with
      | nil => exact absurd hs (splitText_ne_nil sep t)
      | cons p ps => rw [joinText, ← hs, ih, hx]; rfl
    · cases hs : splitText sep t with
      | nil => exact absurd hs (splitText_ne_nil sep t)
      | cons p ps =>
        rw [hs] at ih
        cases ps with
        | nil => rw [← ih]; rfl
        | cons q qs => rw [← ih]; rfl

/-- Splitting what was joined from pieces without the separator gives the pieces back. -/
theorem splitText_joinText {sep : Char} {ps : List Text} (hne : ps ≠ []) (h : ∀ p ∈ ps, sep ∉ p) :
    splitText sep (joinText sep ps) = ps := by
  induction ps with
  | nil => exact absurd rfl hne
  | cons p ps ih =>
    cases ps with
    | nil => exact splitText_of_not_mem (h p List.mem_cons_self)
    | cons q qs =>
      rw [joinText, splitText_append (h p List.mem_cons_self),
        ih (List.cons_ne_nil _ _) fun r hr => h r (List.mem_cons_of_mem _ hr)]

theorem not_mem_joinText {sep ch : Char} {ps : List Text} (hsep : ch ≠ sep) (h : ∀ p ∈ ps, ch ∉ p) :
    ch ∉ joinText sep ps := by
  induction ps with
  | nil => exact List.not_mem_nil
  | cons p ps ih =>
    cases ps with
    | nil => exact h p List.mem_cons_self
    | cons q qs =>
      have h2 := ih fun r hr => h r (List.mem_cons_of_mem _ hr)
      have h1 := h p List.mem_cons_self
      simp only [joinText, List.mem_append, List.mem_cons, not_or]
      exact ⟨h1, hsep, h2⟩

/-! ### The lines of the program representation -/

theorem readRegisterLine_registerLine {r : Reg} {ds : List (Fin 10)} (h : ds ≠ []) :
    readRegisterLine r (registerLine r (numberText ds)) = .ok (numberValue ds) := by
  have hb : breakText ':' (regLabel r :: ':' :: ' ' :: numberText ds) =
      some ([regLabel r], ' ' :: numberText ds) :=
    breakText_append (xs := [regLabel r]) (by cases r <;> decide) _
  rw [readRegisterLine, registerLine, dropStart_append]
  simp only [hb, if_true]
  rw [show dropStart [' '] (' ' :: numberText ds) = some (numberText ds) from
    dropStart_append [' '] (numberText ds)]
  exact readNumber_numberText h

theorem readRegisterLine_eq_ok {r : Reg} {line : Text} {n : Nat} (h : readRegisterLine r line = .ok n) :
    ∃ ds : List (Fin 10), ds ≠ [] ∧ line = registerLine r (numberText ds) ∧ n = numberValue ds := by
  unfold readRegisterLine at h
  split at h
  · cases h
  · rename_i rest hrest
    split at h
    · cases h
    · rename_i label value hb
      split at h
      · rename_i hl
        split at h
        · rename_i number hn
          obtain ⟨ds, hne, rfl, rfl⟩ := readNumber_eq_ok h
          refine ⟨ds, hne, ?_, rfl⟩
          rw [dropStart_eq_some hrest, breakText_eq_some hb, hl, dropStart_eq_some hn]
          rfl
        · cases h
      · cases h

theorem lineEnd_not_mem_registerLine (r : Reg) (ds : List (Fin 10)) :
    lineEnd ∉ registerLine r (numberText ds) := by
  have h := not_mem_numberText (ch := lineEnd) (by decide) ds
  have hr : lineEnd ∉ registerKeyword ∧ lineEnd ≠ regLabel r := by cases r <;> decide
  simp only [registerLine, List.mem_append, List.mem_cons, not_or]
  exact ⟨hr.1, hr.2, by decide, by decide, h⟩

/-- A beginning that a text lacks, its first line lacks too. -/
theorem dropStart_firstLine {key rest : Text} (h : dropStart key rest = none) :
    ∃ line lines, splitText lineEnd rest = line :: lines ∧ dropStart key line = none := by
  cases hs : splitText lineEnd rest with
  | nil => exact absurd hs (splitText_ne_nil _ _)
  | cons line lines =>
    refine ⟨line, lines, rfl, ?_⟩
    cases hd : dropStart key line with
    | none => rfl
    | some r =>
      have hj := joinText_splitText lineEnd rest
      rw [hs, dropStart_eq_some hd] at hj
      obtain ⟨z, rfl⟩ : ∃ z, rest = key ++ z := by
        cases lines with
        | nil => exact ⟨r, hj.symm⟩
        | cons q qs => exact ⟨_, by rw [← hj, joinText, List.append_assoc]⟩
      rw [dropStart_append] at h
      cases h

/-- The only error of a number is `NonNumericValue`. -/
theorem readNumber_error {t : Text} {e : LoadError} (h : readNumber t = .error e) : e = .nonNumericValue := by
  cases t with
  | nil => cases h; rfl
  | cons ch t =>
    rw [readNumber] at h
    split at h <;> cases h
    rfl

/-- The only error of a list of numbers is `NonNumericValue`. -/
theorem readNumbers_error {ts : List Text} {e : LoadError} (h : readNumbers ts = .error e) :
    e = .nonNumericValue := by
  induction ts with
  | nil => cases h
  | cons t ts ih =>
    unfold readNumbers at h
    split at h
    · rename_i hn
      cases h
      exact readNumber_error hn
    · split at h
      · rename_i hns
        cases h
        exact ih hns
      · cases h

/-- A text after good register lines: the line of `r` is the next to be read. -/
theorem parseText_badRegisterLine {da db : List (Fin 10)} (ha : da ≠ []) (hb : db ≠ []) {r : Reg} {text : Text}
    {e : LoadError} (h : takeRegister r (splitText lineEnd text) = .error e) :
    parseText (linesBefore (numberText da) (numberText db) r ++ text) = .error e := by
  have hA := splitText_append (lineEnd_not_mem_registerLine .a da)
  have hB := splitText_append (lineEnd_not_mem_registerLine .b db)
  cases r <;> simp only [linesBefore, List.append_assoc, List.cons_append, List.nil_append]
  · rw [parseText, h]
  · rw [parseText, hA, takeRegister, readRegisterLine_registerLine ha]
    simp only [Except.map, h]
  · rw [parseText, hA, takeRegister, readRegisterLine_registerLine ha]
    simp only [Except.map]
    rw [hB, takeRegister, readRegisterLine_registerLine hb]
    simp only [Except.map, h]

/-- A text whose three register lines are good is read on from the line after them. -/
theorem parseText_registerLines {da db dc : List (Fin 10)} (ha : da ≠ []) (hb : db ≠ []) (hc : dc ≠ [])
    (rest : Text) :
    parseText (registerLines (numberText da) (numberText db) (numberText dc) ++ lineEnd :: rest) =
      match takeBlank (splitText lineEnd rest) with
      | .error e => .error e
      | .ok lines => (takeProgram lines).map (fun ps =>
          { program := ps, a0 := numberValue da, b0 := numberValue db, c0 := numberValue dc }) := by
  simp only [registerLines, linesBefore, List.append_assoc, List.cons_append, List.nil_append]
  rw [parseText, splitText_append (lineEnd_not_mem_registerLine .a da), takeRegister,
    readRegisterLine_registerLine ha]
  simp only [Except.map]
  rw [splitText_append (lineEnd_not_mem_registerLine .b db), takeRegister, readRegisterLine_registerLine hb]
  simp only [Except.map]
  rw [splitText_append (lineEnd_not_mem_registerLine .c dc), takeRegister, readRegisterLine_registerLine hc]
  rfl

end Sys2Proof.Machine
end

