-- ==== Sys2Proof/Tests/Slice0.lean ====
section
/-! SUPPORT. The model's own tests. Expected results come from spec/95_test_vectors.md (the source's worked
examples and the derived vectors) and from the words of spec/30_encoding.md; every witness shows values that
meet the hypotheses of one statement together, clause by clause. -/

namespace Sys2Proof.Tests

open Sys2Proof Sys2Proof.Machine

/-- A loaded instance under given policies, at a given `ip`. -/
def startAt (policies : Policies) (program : List Nat) (a b c ip : Nat) : State :=
  { loadedState policies { program := program, a0 := a, b0 := b, c0 := c } with ip := ip }

/-- A loaded instance under the default policies. -/
def start (program : List Nat) (a b c : Nat) : State := startAt defaultPolicies program a b c 0

/-- The next state of an outcome, if it has one. -/
def after : Host.Outcome State Fault Refusal → Option State
  | .next t => some t
  | .fault _ => none
  | .refused _ => none

/-- A field of the state after one step. -/
def afterStep {α : Type} (s : State) (f : State → α) : Option α := (after (step s)).map f

def bothFault : Policies := { oddTarget := .fault, largeShift := .fault }

def oddExecutes : Policies := { oddTarget := .execute, largeShift := .zero }

/-- 2^64 - 1, the `M` of 95_test_vectors.md. -/
def maxWord : Nat := 18446744073709551615

/-! ### Ill-formed terms are refused (30_encoding.md R42, R51) -/

theorem test_illformed_adv : (Instr.adv 7).wellFormed = false := by decide
theorem test_illformed_bst : (Instr.bst 8).wellFormed = false := by decide
theorem test_illformed_out : (Instr.out 7).wellFormed = false := by decide
theorem test_illformed_bdv : (Instr.bdv 255).wellFormed = false := by decide
theorem test_illformed_cdv : (Instr.cdv 7).wellFormed = false := by decide
theorem test_wellformed_edges :
    (Instr.adv 6).wellFormed = true ∧ (Instr.bxl 255).wellFormed = true ∧
      (Instr.jnz 255).wellFormed = true ∧ (Instr.bxc 7).wellFormed = true := by decide

/-! ### Words written out from 30_encoding.md R50 and 95_test_vectors.md section 3 -/

theorem test_word_adv : decodeTableWord 16 0b0000000000000011 = some (.adv 3) := by decide
theorem test_word_bxl : decodeTableWord 16 0b0000000100000101 = some (.bxl 5) := by decide
theorem test_word_bst : decodeTableWord 16 0b0000001000000100 = some (.bst 4) := by decide
theorem test_word_jnz : decodeTableWord 16 0b0000001111001000 = some (.jnz 200) := by decide
theorem test_word_bxc : decodeTableWord 16 0b0000010011111111 = some (.bxc 255) := by decide
theorem test_word_out : decodeTableWord 16 0b0000010100000101 = some (.out 5) := by decide
theorem test_word_bdv : decodeTableWord 16 0b0000011000000110 = some (.bdv 6) := by decide
theorem test_word_cdv : decodeTableWord 16 0b0000011100000101 = some (.cdv 5) := by decide
theorem test_word_invalid : decodeTableWord 16 0x0800 = none ∧ decodeTableWord 16 0xFF00 = none := by decide
theorem test_bytes_opcode_first :
    decode [3, 0, 9] = .ok (.jnz 0, [9]) ∧ decode [5] = .error .pairUnavailable ∧
      decode [] = .error .pairUnavailable ∧ decode [9, 0] = .error (.invalidOpcode 9) := by decide
theorem test_encode_all :
    encode (.adv 1) = [0, 1] ∧ encode (.bxl 7) = [1, 7] ∧ encode (.bst 6) = [2, 6] ∧
      encode (.jnz 0) = [3, 0] ∧ encode (.bxc 0) = [4, 0] ∧ encode (.out 4) = [5, 4] ∧
      encode (.bdv 6) = [6, 6] ∧ encode (.cdv 5) = [7, 5] := by decide

/-! ### One step each (95_test_vectors.md section 2) -/

theorem test_adv_halves : afterStep (start [0, 1] 2024 0 0) (fun t => (t.a.toNat, t.ip)) = some (1012, 2) := by
  decide
theorem test_adv_shift_of_width :
    afterStep (start [0, 5] maxWord 64 0) (fun t => (t.a.toNat, t.status)) = some (0, .running) := by decide
theorem test_bdv_old_b_is_the_count :
    afterStep (start [6, 5] 100 2 0) (fun t => (t.a.toNat, t.b.toNat)) = some (100, 25) := by decide
theorem test_bdv_by_c :
    afterStep (start [6, 6] 1024 0 3) (fun t => (t.a.toNat, t.b.toNat, t.ip)) = some (1024, 128, 2) := by decide
theorem test_cdv_by_b : afterStep (start [7, 5] 2024 3 0) (fun t => (t.c.toNat, t.ip)) = some (253, 2) := by decide
theorem test_cdv_combo_seven :
    afterStep (start [7, 7] 9 0 0) (fun t => (t.status, t.fault, t.c.toNat, t.ip)) =
      some (.faulted, some ⟨.invalidCombo, 0⟩, 0, 0) := by decide
theorem test_bxl_literal_above_seven : afterStep (start [1, 200] 0 0 0) (fun t => t.b.toNat) = some 200 := by decide
theorem test_bxl_keeps_high_bits :
    afterStep (start [1, 7] 0 maxWord 0) (fun t => t.b.toNat) = some 18446744073709551608 := by decide
theorem test_bst_of_itself : afterStep (start [2, 5] 0 maxWord 0) (fun t => t.b.toNat) = some 7 := by decide
theorem test_bst_of_a : afterStep (start [2, 4] 12345 0 0) (fun t => (t.b.toNat, t.ip)) = some (1, 2) := by decide
theorem test_jnz_self_jump_guard : afterStep (start [3, 0] 5 0 0) State.ip = some 2 := by decide
theorem test_jnz_beyond_the_end :
    afterStep (start [3, 200] 1 0 0) (fun t => (t.ip, afterStep t State.status)) =
      some (200, some .halted) := by decide
theorem test_bxc_ignores_operand :
    afterStep (start [4, 7] 0 5 5) (fun t => (t.b.toNat, t.c.toNat, t.status)) = some (0, 5, .running) := by decide
theorem test_bxc_example : afterStep (start [4, 0] 0 2024 43690) (fun t => t.b.toNat) = some 44354 := by decide
theorem test_out_mod_eight : afterStep (start [5, 4] 10 0 0) (fun t => (t.trace, t.ip)) = some ([2], 2) := by decide
theorem test_out_combo_seven :
    afterStep (start [5, 7] 0 0 0) (fun t => (t.trace, t.fault)) =
      some ([], some ⟨.invalidCombo, 0⟩) := by decide

/-! ### The engine (95_test_vectors.md section 2.5) and the host boundary -/

theorem test_empty_program_halts : afterStep State.reset (fun t => (t.status, t.ip)) = some (.halted, 0) := by decide
theorem test_availability_before_validity : afterStep (start [9] 0 0 0) State.status = some .halted := by decide
theorem test_invalid_opcode :
    afterStep (start [9, 0] 0 0 0) (fun t => (t.status, t.fault)) =
      some (.faulted, some ⟨.invalidOpcode, 0⟩) := by decide
theorem test_fetch_word_runs_at_reset :
    afterStep (State.reset.withFetchWord 16 0x01C8) (fun t => (t.b.toNat, t.ip)) = some (200, 2) := by decide

/-- The text of 95_test_vectors.md section 1 (S3). -/
def textS3 : Text :=
  programText ['2', '0', '2', '4'] ['0'] ['0'] [['0'], ['1'], ['5'], ['4'], ['3'], ['0']]

theorem test_text_written_out :
    programText ['7'] ['0'] ['9'] [['2'], ['6']] =
      ['R', 'e', 'g', 'i', 's', 't', 'e', 'r', ' ', 'A', ':', ' ', '7', '\n',
        'R', 'e', 'g', 'i', 's', 't', 'e', 'r', ' ', 'B', ':', ' ', '0', '\n',
        'R', 'e', 'g', 'i', 's', 't', 'e', 'r', ' ', 'C', ':', ' ', '9', '\n', '\n',
        'P', 'r', 'o', 'g', 'r', 'a', 'm', ':', ' ', '2', ',', '6'] := by decide
theorem test_text_parses :
    parseText textS3 = .ok { program := [0, 1, 5, 4, 3, 0], a0 := 2024, b0 := 0, c0 := 0 } := by decide
theorem test_trace_rendering :
    renderTrace [4, 6, 3, 5, 6, 3, 5, 2, 1, 0] =
      ['4', ',', '6', ',', '3', ',', '5', ',', '6', ',', '3', ',', '5', ',', '2', ',', '1', ',', '0'] := by decide
theorem test_assembly_notation :
    assemblyText (.adv 3) = ['A', 'D', 'V', ' ', '3'] ∧
      assemblyText (.bxl 205) = ['B', 'X', 'L', ' ', '2', '0', '5'] := by decide

/-! ### Witnesses: values that meet the hypotheses of a statement, clause by clause -/

theorem witness_LoadSetsEveryPieceOfStateOrRefuses :
    ({ program := [255, 0], a0 := maxWord, b0 := 0, c0 := maxWord } : LoadArgs).inRange = true ∧
    (256 ≤ 256 ∧ 2 ^ 64 ≤ maxWord + 1) ∧
    parseText textS3 = .ok { program := [0, 1, 5, 4, 3, 0], a0 := 2024, b0 := 0, c0 := 0 } ∧
    parseText [] = .error (.missingRegisterLine .a) := by decide

theorem witness_EveryLoadMeetsTheInvariant :
    load defaultPolicies { program := [255], a0 := maxWord, b0 := 0, c0 := 0 } =
      .ok (start [255] maxWord 0 0) := by decide

theorem witness_FirstStepRunsThePairAtIndexZero :
    load defaultPolicies { program := [5], a0 := 0, b0 := 0, c0 := 0 } = .ok (start [5] 0 0 0) ∧
    load defaultPolicies { program := [5, 3], a0 := 0, b0 := 0, c0 := 0 } = .ok (start [5, 3] 0 0 0) ∧
    decodePair (BitVec.ofNat 8 5) (BitVec.ofNat 8 3) = .ok (.out 3) ∧
    load defaultPolicies { program := [8, 0], a0 := 0, b0 := 0, c0 := 0 } = .ok (start [8, 0] 0 0 0) ∧
    load defaultPolicies { program := [255, 255], a0 := 0, b0 := 0, c0 := 0 } =
      .ok (start [255, 255] 0 0 0) := by decide

theorem witness_EveryStepKeepsTheInvariant :
    MachineInvariant (startAt defaultPolicies [0, 1, 3, 0] 4 0 0 2) ∧
      (after (step (startAt defaultPolicies [0, 1, 3, 0] 4 0 0 2))).map State.ip = some 0 := by decide

theorem witness_EveryReachableStateMeetsTheInvariant :
    load defaultPolicies { program := [5, 4], a0 := 10, b0 := 0, c0 := 0 } = .ok (start [5, 4] 10 0 0) ∧
      (after (steps 2 (start [5, 4] 10 0 0))).map State.status = some .halted := by decide

theorem witness_AStepRunsTheDecodedInstruction :
    (start [1, 7] 0 29 0).status = .running ∧ memRead (start [1, 7] 0 29 0) 0 = .ok 1 ∧
      memRead (start [1, 7] 0 29 0) 1 = .ok 7 ∧ decode [1, 7] = .ok (.bxl 7, []) := by decide

theorem witness_HaltsExactlyWhenNoPairIsAvailable :
    ((start [5] 0 0 0).status = .running ∧ (start [5] 0 0 0).size ≤ (start [5] 0 0 0).ip + 1) ∧
    ((start [5, 0] 0 0 0).status = .running ∧ (start [5, 0] 0 0 0).ip + 1 < (start [5, 0] 0 0 0).size) := by
  decide

theorem witness_TheRouterSelectsByOpcodeByte :
    ∀ o ∈ [0, 1, 2, 3, 4, 5, 6, 7, 8, 255], (start [o, 6] 1 0 0).status = .running ∧
      memRead (start [o, 6] 1 0 0) 0 = .ok (BitVec.ofNat 8 o) ∧ memRead (start [o, 6] 1 0 0) 1 = .ok 6 := by
  decide

theorem witness_StoppedMachinesStayAsTheyAre :
    (haltStep State.reset).status ≠ .running ∧ (raiseFault State.reset .invalidCombo).status ≠ .running := by
  decide

theorem witness_StatusTransitionsAndCodes :
    afterStep (start [5, 3] 0 0 0) State.status = some .running ∧
    afterStep (start [5, 7] 0 0 0) State.status = some .faulted ∧
    afterStep (start [5] 0 0 0) State.status = some .halted ∧
    afterStep (haltStep (start [5, 3] 0 0 0)) State.status = some .halted ∧
    afterStep (raiseFault (start [5, 3] 0 0 0) .invalidOpcode) State.status = some .faulted := by decide

theorem witness_AFaultingStepCommitsNothing :
    (start [0, 7] 5 0 0).status = .running ∧
      afterStep (start [0, 7] 5 0 0) (fun t => (t.status, t.a.toNat)) = some (.faulted, 5) := by decide

theorem witness_FaultChecksAreMadeInOrder_halts :
    (start [9] 0 0 0).status = .running ∧ (start [9] 0 0 0).size ≤ (start [9] 0 0 0).ip + 1 := by decide

theorem witness_FaultChecksAreMadeInOrder_opcode :
    memRead (start [8, 7] 0 0 0) 0 = .ok 8 ∧ memRead (start [8, 7] 0 0 0) 1 = .ok 7 := by decide

theorem witness_FaultChecksAreMadeInOrder_combo :
    ∀ o ∈ [0, 2, 5, 6, 7], memRead (start [o, 7] 0 0 0) 0 = .ok (BitVec.ofNat 8 o) ∧
      memRead (start [o, 7] 0 0 0) 1 = .ok 7 := by decide

theorem witness_FaultChecksAreMadeInOrder_shift :
    ∀ o ∈ [0, 6, 7], memRead (startAt bothFault [o, 5] 1 64 0 0) 0 = .ok (BitVec.ofNat 8 o) ∧
      memRead (startAt bothFault [o, 5] 1 64 0 0) 1 = .ok 5 ∧
      combo (startAt bothFault [o, 5] 1 64 0 0) 5 = .ok 64 := by decide

theorem witness_FaultChecksAreMadeInOrder_target :
    memRead (start [3, 1] 1 0 0) 0 = .ok 3 ∧ memRead (start [3, 1] 1 0 0) 1 = .ok 1 ∧
      (start [3, 1] 1 0 0).a ≠ 0 ∧ (start [3, 1] 1 0 0).policies.oddTarget = .fault ∧
      afterStep (start [3, 1] 1 0 0) State.status = some .faulted := by decide

theorem witness_FaultPortsShowTheRecord :
    State.reset.fault = none ∧
      ∀ r ∈ [FaultReason.invalidCombo, .invalidOpcode, .misalignedTarget, .shiftOverflow],
        (raiseFault State.reset r).fault = some ⟨r, 0⟩ := by decide

theorem witness_ACommittedStepWritesAtMostOnce :
    (afterStep (start [3, 4] 1 0 0) (fun t => (t.status, t.ip)) = some (.running, 4) ∧
      memRead (start [3, 4] 1 0 0) 0 = .ok 3) ∧
    (afterStep (start [5, 3] 1 0 0) (fun t => (t.status, t.trace)) = some (.running, [3]) ∧
      memRead (start [5, 3] 1 0 0) 0 = .ok 5) ∧
    (afterStep (start [0, 0] 1 0 0) (fun t => (t.status, t.ip)) = some (.running, 2) ∧
      memRead (start [0, 0] 1 0 0) 0 = .ok 0) := by decide

theorem witness_TheProgramStoreNeverChanges :
    (after (steps 3 (start [0, 1, 1, 5] 9 0 0))).map (fun t => (t.mem, t.status)) =
      some ((start [0, 1, 1, 5] 9 0 0).mem, .halted) := by decide

theorem witness_TheTraceSoFarIsAPrefixOfTheFullTrace :
    ∃ u t, runToCompletion 5 (start [5, 0, 5, 1] 0 0 0) = .next (.ended u) ∧
      steps 1 (start [5, 0, 5, 1] 0 0 0) = .next t ∧ t.trace = [0] ∧ u.trace = [0, 1] :=
  ⟨_, _, rfl, rfl, by decide, by decide⟩

theorem witness_EmittedValuesNeverFeedBack :
    (after (steps 2 (start [5, 4, 0, 1] 10 0 0))).map (fun t => (t.trace, t.a.toNat)) = some ([2], 5) := by decide

theorem witness_ADutifulProgramNeverFaults : soundRun (start [0, 1, 5, 4, 3, 0] 2024 0 0) := by decide

theorem witness_ComboOperandsResolve :
    (3 : Byte).toNat ≤ 3 ∧ (4 : Byte).toNat = 4 ∧ (5 : Byte).toNat = 5 ∧ (6 : Byte).toNat = 6 ∧
      7 ≤ (7 : Byte).toNat := by decide

theorem witness_TheIgnoredOperandPlaysNoPart :
    (start [4] 0 1 1).status = .running ∧ memRead (start [4] 0 1 1) 0 = .ok 4 ∧
      (start [4] 0 1 1).size = (start [4] 0 1 1).ip + 1 := by decide

theorem witness_ShiftIsExactFloorDivision :
    (63 : Word).toNat < 64 ∧ 64 ≤ (64 : Word).toNat ∧ shr .zero (-1) 63 = .ok 1 ∧ shr .zero (-1) 64 = .ok 0 ∧
      shr .zero (-1) (-1) = .ok 0 ∧ shr .fault (-1) 64 = .error .shiftOverflow := by decide

theorem witness_AdvDividesAIntoA :
    (combo (startAt bothFault [0, 6] 1 0 63 0) 6 = .ok 63 ∧ (63 : Word).toNat < 64) ∧
    combo (startAt defaultPolicies [0, 6] 1 0 64 0) 6 = .ok 64 ∧
    (combo (startAt bothFault [0, 6] 1 0 64 0) 6 = .ok 64 ∧ bothFault.largeShift = .fault) ∧
    (after (exec (.adv 1) (start [0, 1] 9 0 0))).map (fun t => t.a.toNat) = some 4 := by decide

theorem witness_BdvDividesAIntoB :
    (after (exec (.bdv 6) (startAt bothFault [6, 6] maxWord 0 63 0))).map (fun t => t.b.toNat) = some 1 ∧
    (after (exec (.bdv 6) (startAt bothFault [6, 6] maxWord 0 64 0))).map State.fault =
      some (some ⟨.shiftOverflow, 0⟩) ∧
    (after (exec (.bdv 7) (start [6, 7] 1 0 0))).map State.fault = some (some ⟨.invalidCombo, 0⟩) := by decide

theorem witness_CdvDividesAIntoC :
    (after (exec (.cdv 6) (startAt bothFault [7, 6] maxWord 0 63 0))).map (fun t => t.c.toNat) = some 1 ∧
    (after (exec (.cdv 6) (startAt bothFault [7, 6] maxWord 0 64 0))).map State.fault =
      some (some ⟨.shiftOverflow, 0⟩) ∧
    (after (exec (.cdv 255) (start [7, 255] 1 0 0))).map State.fault = some (some ⟨.invalidCombo, 0⟩) := by
  decide

theorem witness_BstSetsBToComboModEight :
    (6 : Byte).toNat ≤ 6 ∧ 7 ≤ (7 : Byte).toNat ∧
      (after (exec (.bst 6) (start [2, 6] 0 0 9))).map (fun t => t.b.toNat) = some 1 := by decide

theorem witness_BxcXorsCIntoB :
    (start [4] 0 1 1).status = .running ∧ memRead (start [4] 0 1 1) 0 = .ok 4 ∧
      (start [4] 0 1 1).size = (start [4] 0 1 1).ip + 1 := by decide

theorem witness_JnzJumpsIfAIsNotZero :
    (start [3, 7] 0 0 0).a = 0 ∧
    (0 : Byte).toNat = (start [3, 0] 5 0 0).ip ∧
    ((start [3, 2] 1 0 0).a ≠ 0 ∧ (2 : Byte).toNat ≠ (start [3, 2] 1 0 0).ip ∧ (2 : Byte).toNat % 2 = 0 ∧
      (start [3, 2] 1 0 0).size ≤ (2 : Byte).toNat + 1) ∧
    ((1 : Byte).toNat % 2 = 1 ∧ oddExecutes.oddTarget = .execute ∧
      (after (exec (.jnz 1) (startAt oddExecutes [3, 1] 1 0 0 0))).map State.ip = some 1) ∧
    (after (exec (.jnz 1) (start [3, 1] 1 0 0))).map State.fault = some (some ⟨.misalignedTarget, 0⟩) := by decide

theorem witness_OddTargetsFollowThePolicy :
    (start [3, 3] 1 6 0).policies.oddTarget = .fault ∧
    ((startAt oddExecutes [3, 3, 1, 5, 4, 0] 1 6 0 0).a ≠ 0 ∧
      memRead (startAt oddExecutes [3, 3, 1, 5, 4, 0] 1 6 0 0) (3 : Byte).toNat = .ok 5 ∧
      memRead (startAt oddExecutes [3, 3, 1, 5, 4, 0] 1 6 0 0) ((3 : Byte).toNat + 1) = .ok 4 ∧
      decodePair 5 4 = .ok (.out 4)) ∧
    (start [3, 3] 0 0 0).a = 0 ∧ (3 : Byte).toNat = (startAt defaultPolicies [0, 0, 0, 3, 3] 1 0 0 3).ip := by
  decide

theorem witness_OutEmitsComboModEight :
    (6 : Byte).toNat ≤ 6 ∧ 7 ≤ (7 : Byte).toNat ∧
      (after (exec (.out 6) (start [5, 6] 0 0 8))).map State.trace = some [0] := by decide

theorem witness_OutputPortsShowTheStep :
    afterStep (start [5, 3] 0 0 0) (fun t => (portsAfter (start [5, 3] 0 0 0) t).outValid) = some true ∧
    afterStep (start [0, 3] 0 0 0) (fun t => (portsAfter (start [0, 3] 0 0 0) t).outValid) = some false := by
  decide

theorem witness_RegistersReadAndWrittenFollowTheTable :
    (.a ∉ regReads (.bst 5) ∧ .b ∉ regReads (.bdv 6) ∧ .c ∉ regReads (.cdv 5)) ∧
    (after (exec (.bdv 6) (start [6, 6] 1024 9 3))).map (fun t => t.b.toNat) = some 128 := by decide

theorem witness_ExecutionLeavesTheRestUnchanged :
    (after (exec (.cdv 5) (start [7, 5] 2024 3 0))).map (fun t => (t.a.toNat, t.b.toNat, t.c.toNat)) =
      some (2024, 3, 253) ∧ regWrites (.cdv 5) ≠ some .a := by decide

theorem witness_RegisterWritesStayBelowTheWordSize :
    ∀ i ∈ [Instr.adv 3, .bdv 3, .cdv 3, .bst 3, .bxl 3, .bxc 3],
      (after (exec i (start [0, 3] maxWord 5 6))).map State.status = some .running := by decide

theorem witness_TheInstructionPointerNeverWraps :
    afterStep (start [5, 3] 0 0 0) (fun t => (t.ip, t.status)) = some (2, .running) ∧
    afterStep (start [3, 254] 1 0 0) (fun t => (t.ip, t.status)) = some (254, .running) ∧
    afterStep (start [5] 0 0 0) (fun t => (t.ip, t.status)) = some (0, .halted) := by decide

theorem witness_RepeatedAdvReachesZero :
    combo (start [0, 1] maxWord 0 0) 1 = .ok 1 ∧ 0 < (1 : Word).toNat ∧ (1 : Word).toNat < 64 ∧
      0 < (start [0, 1] maxWord 0 0).a.toNat := by decide

theorem witness_TableWordsAndInstructionsCorrespond :
    (0x07FF < 2 ^ 16 ∧ 0x07FF / 256 ≤ 7) ∧ (0x0800 < 2 ^ 16 ∧ 8 ≤ 0x0800 / 256) := by decide

theorem witness_IllegalEncodingsFault :
    (Instr.cdv 7).wellFormed = false ∧ (Instr.cdv 6).wellFormed = true ∧
    ((start [8, 0] 0 0 0).status = .running ∧ memRead (start [8, 0] 0 0 0) 0 = .ok 8) := by decide

theorem witness_EncodedProgramsAreFetchedBack :
    load defaultPolicies { program := (encodeProgram [.adv 3, .out 4]).map BitVec.toNat,
                           a0 := 1, b0 := 0, c0 := 0 } = .ok (start [0, 3, 5, 4] 1 0 0) ∧
      [Instr.adv 3, .out 4][1]? = some (.out 4) ∧
      (startAt defaultPolicies [0, 3, 5, 4] 1 0 0 2).mem = (start [0, 3, 5, 4] 1 0 0).mem := by decide

theorem witness_APlacedInstructionIsTheNextToRun :
    storeWf (startAt defaultPolicies [9, 9] 0 0 0 1) ∧ decodeTableWord 16 0x0505 = some (.out 5) := by decide

theorem witness_ExactlyTheTemplateTextsParse :
    parseText (textS3 ++ ['\n']) = .ok { program := [0, 1, 5, 4, 3, 0], a0 := 2024, b0 := 0, c0 := 0 } := by decide

theorem witness_MalformedTextsNameTheExpectation :
    dropStart registerKeyword ['R', 'e', 'g'] = none ∧ dropStart registerKeyword [] = none ∧
      (':' ∉ ['B', ' ', '1'] ∧ lineEnd ∉ ['B', ' ', '1']) ∧
      (':' ∉ ['b'] ∧ lineEnd ∉ ['b'] ∧ ['b'] ≠ [regLabel .b] ∧ lineEnd ∉ [' ', '1']) ∧
      ([] : Text).head? ≠ some lineEnd ∧ ['P'].head? ≠ some lineEnd ∧
      dropStart programKeyword ['1', ',', '2'] = none ∧ dropStart programKeyword [] = none := by decide

/-- A value that is not one space and digits: a sign before the digits, and no digits at all. -/
theorem witness_MalformedTextsNameTheExpectation_value (ds : List (Fin 10)) (h : ds ≠ []) :
    [' ', '-', '1'] ≠ ' ' :: numberText ds ∧ [' '] ≠ ' ' :: numberText ds := by
  cases ds with
  | nil => exact absurd rfl h
  | cons d ds =>
    have hd : ∀ d : Fin 10, '-' ≠ digitChar d.val := by decide
    simp [numberText, hd d]

/-- A program list that is not numbers and commas: a sign before the digits. -/
theorem witness_MalformedProgramListsAreNonNumeric (dps : List (List (Fin 10))) (h : ∀ d ∈ dps, d ≠ [])
    (hn : dps ≠ []) : lineEnd ∉ ['-', '1'] ∧ ['-', '1'] ≠ joinText ',' (dps.map numberText) := by
  have hd : ∀ d : Fin 10, '-' ≠ digitChar d.val := by decide
  rcases dps with _ | ⟨_ | ⟨d, ds⟩, _ | ⟨p, ps⟩⟩
  · exact absurd rfl hn
  · exact absurd rfl (h [] List.mem_cons_self)
  · exact absurd rfl (h [] List.mem_cons_self)
  · refine ⟨by decide, ?_⟩
    simp [numberText, joinText, hd d]
  · refine ⟨by decide, ?_⟩
    simp [numberText, joinText, hd d]

theorem witness_ARenderedTraceReadsBack : renderTrace [7, 0] = ['7', ',', '0'] := by decide

end Sys2Proof.Tests
end

section
/-! SUPPORT. What a step can end in, as one inductive relation, and what a handler's result can hold: the
register write, the next `ip` and the emit. -/

namespace Sys2Proof.Machine

/-! ### The handlers' results -/

theorem map_eq_ok {α β : Type} {e : Except FaultReason α} {f : α → β} {y : β} (h : e.map f = .ok y) :
    ∃ v, e = .ok v ∧ y = f v := by
  cases e <;> cases h
  exact ⟨_, rfl, rfl⟩

/-- The register write, the emit and the next `ip` of a handler's result: what the instruction alone fixes
of them. -/
theorem handlerResult_shape {i : Instr} {s : State} {h : HandlerResult} (hh : handlerResult i s = .ok h) :
    h.wr.map Prod.fst = regWrites i ∧ (h.em.isSome = true ↔ ∃ k, i = .out k) ∧
      (h.nextIp = s.ip + 2 ∨ ∃ lit, i = .jnz lit ∧ jumpIp s lit = .ok h.nextIp) := by
  rcases handlerResult_ok hh with ⟨k, v, rfl, rfl, -⟩ | ⟨lit, rfl, rfl⟩ | ⟨k, v, rfl, rfl, -⟩ |
    ⟨lit, target, rfl, rfl, hj⟩ | ⟨x, rfl, rfl⟩ | ⟨k, v, rfl, rfl, -⟩ | ⟨k, v, rfl, rfl, -⟩ |
    ⟨k, v, rfl, rfl, -⟩
  case inr.inr.inr.inl => exact ⟨rfl, by simp, .inr ⟨lit, rfl, hj⟩⟩
  all_goals exact ⟨rfl, by simp [writeResult], .inl rfl⟩

/-- The register a handler writes is the one of the table (10_state.md R13, R15). -/
theorem handlerResult_writes {i : Instr} {s : State} {h : HandlerResult} (hh : handlerResult i s = .ok h) :
    h.wr.map Prod.fst = regWrites i := (handlerResult_shape hh).1

/-- OUT is the only instruction whose handler emits, and it always does (44_output.md R80, R81). -/
theorem handlerResult_emits {i : Instr} {s : State} {h : HandlerResult} (hh : handlerResult i s = .ok h) :
    h.em.isSome = true ↔ ∃ k, i = .out k := (handlerResult_shape hh).2.1

/-- Where a committed instruction goes (10_state.md R17, 43_control.md R77): to the next pair, or by a JNZ
to its operand byte, which is even unless odd targets are executed. -/
theorem handlerResult_nextIp {i : Instr} {s : State} {h : HandlerResult} (hh : handlerResult i s = .ok h) :
    h.nextIp = s.ip + 2 ∨
      ∃ lit, i = .jnz lit ∧ h.nextIp = lit.toNat ∧
        (lit.toNat % 2 = 0 ∨ s.policies.oddTarget = .execute) := by
  obtain ⟨-, -, hip | ⟨lit, rfl, hj⟩⟩ := handlerResult_shape hh
  · exact .inl hip
  · rcases jumpIp_cases s lit with ⟨-, hc⟩ | ⟨-, -, -, -, hc⟩ | ⟨-, -, hp, hc⟩ <;>
      rw [hc] at hj
    · exact .inl (Except.ok.inj hj).symm
    · cases hj
    · exact .inr ⟨lit, rfl, (Except.ok.inj hj).symm, hp⟩

/-! ### The step -/

/-- The next states of a step (40_execution_engine.md R60, R61, R64; 60_exceptions.md R84). -/
inductive StepEnd (s : State) : State → Prop
  | stopped (hs : s.status ≠ .running) : StepEnd s s
  | halted (hr : s.status = .running) (hu : s.size ≤ s.ip + 1) : StepEnd s (haltStep s)
  | invalidOpcode (hr : s.status = .running) (ha : s.ip + 1 < s.size)
      (h8 : 8 ≤ (memByte s.mem s.ip).toNat) : StepEnd s (raiseFault s .invalidOpcode)
  | handlerFault {i : Instr} {r : FaultReason} (hr : s.status = .running) (ha : s.ip + 1 < s.size)
      (ho : memByte s.mem s.ip = opcodeByte i) (hk : memByte s.mem (s.ip + 1) = i.operand)
      (hh : handlerResult i s = .error r) : StepEnd s (raiseFault s r)
  | committed {i : Instr} {h : HandlerResult} (hr : s.status = .running) (ha : s.ip + 1 < s.size)
      (ho : memByte s.mem s.ip = opcodeByte i) (hk : memByte s.mem (s.ip + 1) = i.operand)
      (hh : handlerResult i s = .ok h) : StepEnd s (commit s h)

/-- A step with an instruction at `ip` ends as that instruction's handler does. -/
theorem step_of_instr {s : State} {i : Instr} (hr : s.status = .running) (ha : s.ip + 1 < s.size)
    (ho : memByte s.mem s.ip = opcodeByte i) (hk : memByte s.mem (s.ip + 1) = i.operand) :
    step s = finish s (handlerResult i s) := by
  rw [step_of_available hr ha, dispatchPair, ho, hk, decodePair_encode]
  exact exec_eq_finish i s

/-- The relation is the step: every next state of a step is one of the five ends, and each is reached. -/
theorem step_eq_next_iff {s t : State} : step s = .next t ↔ StepEnd s t := by
  constructor
  · intro h
    rcases step_cases s with ⟨hs, e⟩ | ⟨hr, hu, e⟩ | ⟨hr, ha, h8, e⟩ | ⟨hr, ha, i, ho, hk, e⟩ <;>
      rw [e] at h
    · cases h; exact .stopped hs
    · cases h; exact .halted hr hu
    · cases h; exact .invalidOpcode hr ha h8
    · rcases exec_next_iff.1 h with ⟨_, hh, rfl⟩ | ⟨_, hh, rfl⟩
      · exact .committed hr ha ho hk hh
      · exact .handlerFault hr ha ho hk hh
  · rintro (hs | ⟨hr, hu⟩ | ⟨hr, ha, h8⟩ | ⟨hr, ha, ho, hk, hh⟩ | ⟨hr, ha, ho, hk, hh⟩)
    · exact step_of_stopped hs
    · exact step_of_unavailable hr hu
    · rw [step_of_available hr ha, dispatchPair, decodePair_eq_error.2 ⟨h8, rfl⟩]
    · rw [step_of_instr hr ha ho hk, hh, finish_error]
    · rw [step_of_instr hr ha ho hk, hh, finish_ok]

/-- A step that ends Running has committed an instruction. -/
theorem StepEnd.committed_of_running {s t : State} (h : StepEnd s t) (ht : t.status = .running) :
    s.status = .running ∧ s.ip + 1 < s.size ∧ ∃ i r, memByte s.mem s.ip = opcodeByte i ∧
      memByte s.mem (s.ip + 1) = i.operand ∧ handlerResult i s = .ok r ∧ t = commit s r := by
  cases h with
  | stopped hs => exact absurd ht hs
  | halted hr hu => cases ht
  | invalidOpcode hr ha h8 => cases ht
  | handlerFault hr ha ho hk hh => cases ht
  | committed hr ha ho hk hh => exact ⟨hr, ha, _, _, ho, hk, hh, rfl⟩

/-! ### A row of steps -/

theorem steps_succ_eq_next {k : Nat} {s t : State} :
    steps (k + 1) s = .next t ↔ ∃ u, step s = .next u ∧ steps k u = .next t := by
  rw [steps_succ]
  cases step s with
  | next u => simp
  | fault f => simp
  | refused r => simp

/-- What every step keeps, any number of steps keeps. -/
theorem steps_keep {P : State → Prop} (hP : ∀ s t, P s → step s = .next t → P t) {k : Nat} {s t : State}
    (hs : P s) (h : steps k s = .next t) : P t := by
  induction k generalizing s with
  | zero => cases h; exact hs
  | succ k ih =>
    obtain ⟨u, hu, h⟩ := steps_succ_eq_next.1 h
    exact ih (hP s u hs hu) h

end Sys2Proof.Machine
end

section
/-! The machine's invariant (10_state.md R18, R19, R21): every load establishes it, each of the ends of a
step keeps it, so every reachable state meets it. -/

namespace Sys2Proof.Machine

theorem storeWf_congr {s t : State} (hm : t.mem = s.mem) (hn : t.size = s.size) (h : storeWf s) :
    storeWf t := by
  rw [storeWf, hm, hn]
  exact h

/-- Outside Faulted the invariant leaves no fault record (10_state.md R21). -/
theorem fault_eq_none {s : State} (h : faultRecordOk s) (hs : s.status ≠ .faulted) : s.fault = none := by
  rw [← Option.not_isSome_iff_eq_none, h.1]
  exact hs

theorem faultRecordOk_of_none {s : State} (hf : s.fault = none) (hs : s.status ≠ .faulted) :
    faultRecordOk s := by
  simp [faultRecordOk, hf, hs]

theorem haltStep_invariant {s : State} (hr : s.status = .running) (h : MachineInvariant s) :
    MachineInvariant (haltStep s) := by
  obtain ⟨hm, hf, hb, hp⟩ := h
  have hn : s.fault = none := fault_eq_none hf (by simp [hr])
  exact ⟨hm, faultRecordOk_of_none hn (by simp), hb, hp⟩

theorem raiseFault_invariant {s : State} (r : FaultReason) (h : MachineInvariant s) :
    MachineInvariant (raiseFault s r) := by
  obtain ⟨hm, -, hb, hp⟩ := h
  exact ⟨hm, by simp [faultRecordOk], hb, hp⟩

/-- A commit keeps the invariant: the next pair lies inside the store and a jump's target is a byte. -/
theorem commit_invariant {i : Instr} {s : State} {r : HandlerResult} (hr : s.status = .running)
    (ha : s.ip + 1 < s.size) (hh : handlerResult i s = .ok r) (h : MachineInvariant s) :
    MachineInvariant (commit s r) := by
  obtain ⟨hm, hf, hb, hp⟩ := h
  have hn : s.fault = none := fault_eq_none hf (by simp [hr])
  refine ⟨storeWf_congr (commit_mem s r) (commit_size s r) hm,
    faultRecordOk_of_none (by simp [hn]) (by simp [hr]), ?_, ?_⟩ <;> simp only [ipBounded, ipPaired, commit_ip, commit_size, commit_policies]
  · rcases handlerResult_nextIp hh with e | ⟨lit, -, e, -⟩ <;> rw [e]
    · omega
    · have := lit.isLt
      omega
  · intro hpol
    rcases handlerResult_nextIp hh with e | ⟨lit, -, e, hlit | hlit⟩ <;> rw [e]
    · have := hp hpol
      omega
    · exact hlit
    · rw [hpol] at hlit; cases hlit

theorem step_invariant {s t : State} (hs : MachineInvariant s) (h : StepEnd s t) : MachineInvariant t := by
  cases h with
  | stopped _ => exact hs
  | halted hr _ => exact haltStep_invariant hr hs
  | invalidOpcode _ _ _ => exact raiseFault_invariant _ hs
  | handlerFault _ _ _ _ _ => exact raiseFault_invariant _ hs
  | committed hr ha _ _ hh => exact commit_invariant hr ha hh hs

theorem loadedState_invariant (policies : Policies) (x : LoadArgs) :
    MachineInvariant (loadedState policies x) :=
  ⟨loadedState_storeWf policies x, faultRecordOk_of_none rfl (by simp [loadedState]),
    Nat.zero_le _, fun _ => rfl⟩

/-- Settles O6: each end of a step keeps the invariant. -/
theorem everyStepKeepsTheInvariant : Obligations.EveryStepKeepsTheInvariant :=
  fun _ _ hs h => step_invariant hs (step_eq_next_iff.1 h)

/-- Settles O4: the loaded state meets every part of the invariant. -/
theorem everyLoadMeetsTheInvariant : Obligations.EveryLoadMeetsTheInvariant := by
  intro policies x s h
  obtain ⟨-, rfl⟩ := load_eq_ok h
  exact loadedState_invariant policies x

/-- Settles O7: the invariant holds after a load and every step keeps it. -/
theorem everyReachableStateMeetsTheInvariant : Obligations.EveryReachableStateMeetsTheInvariant :=
  fun policies x s _ _ hl h =>
    steps_keep everyStepKeepsTheInvariant (everyLoadMeetsTheInvariant policies x s hl) h

end Sys2Proof.Machine
end

section
/-! Load (10_state.md R27), the status (R20) and the instruction pointer (R17, R19). -/

namespace Sys2Proof.Machine

theorem load_of_inRange {policies : Policies} {x : LoadArgs} (h : x.inRange = true) :
    load policies x = .ok (loadedState policies x) := if_pos h

theorem load_of_not_inRange {policies : Policies} {x : LoadArgs} (h : ¬ x.inRange = true) :
    load policies x = .error .valueOutOfRange := if_neg h

/-- The Program Store of an accepted load reads as the values that were loaded. -/
theorem memRead_loadedState (policies : Policies) {x : LoadArgs} (hx : ∀ v ∈ x.program, v < 256) {i v : Nat}
    (hv : x.program[i]? = some v) : (memRead (loadedState policies x) i).map BitVec.toNat = .ok v := by
  obtain ⟨hi, rfl⟩ := List.getElem?_eq_some_iff.1 hv
  have hlt := hx _ (List.getElem_mem hi)
  rw [memRead_of_lt (s := loadedState policies x) hi, memByte_loadedState policies x hi, Except.map,
    BitVec.toNat_ofNat, Nat.mod_eq_of_lt hlt]

/-- Settles O1: `load` decides by the range check alone, and `loadText` by the parse before it. -/
theorem loadSetsEveryPieceOfStateOrRefuses : Obligations.LoadSetsEveryPieceOfStateOrRefuses := by
  intro policies x
  refine ⟨fun hp ha hb hc => ?_, fun hout => ?_, fun text h => ?_, fun text e h => ?_, fun _ _ => rfl⟩
  · exact ⟨_, load_of_inRange ((inRange_iff x).2 ⟨hp, ha, hb, hc⟩), rfl,
      fun _ _ => memRead_loadedState policies hp, Nat.mod_eq_of_lt ha, Nat.mod_eq_of_lt hb,
      Nat.mod_eq_of_lt hc, rfl, rfl, rfl, rfl, rfl⟩
  · refine load_of_not_inRange fun hin => ?_
    obtain ⟨hp, ha, hb, hc⟩ := (inRange_iff x).1 hin
    rcases hout with ⟨v, hv, h⟩ | h | h | h
    · have := hp v hv
      omega
    all_goals omega
  · rw [loadText, h]
  · rw [loadText, h]

/-- Settles O13: one case per end of a step, and the codes of the three statuses. -/
theorem statusTransitionsAndCodes : Obligations.StatusTransitionsAndCodes := by
  refine ⟨fun s t h => ?_, fun policies x s h => ?_, fun s t => ?_⟩
  · cases step_eq_next_iff.1 h with
    | stopped hs => exact ⟨fun hr => absurd hr hs, fun hr => absurd hr hs, id, id⟩
    | halted hr hu => simp [hr, hu]
    | invalidOpcode hr ha _ => simp [hr, ha]
    | handlerFault hr ha _ _ _ => simp [hr, ha]
    | committed hr ha _ _ _ => simp [hr, ha]
  · obtain ⟨-, rfl⟩ := load_eq_ok h
    rfl
  · cases ht : t.status <;> simp [portsAfter, statusCode, ht]

/-- Settles O39: a step that ends Running has committed a handler's next `ip`. -/
theorem theInstructionPointerNeverWraps : Obligations.TheInstructionPointerNeverWraps := by
  intro s t h
  have hend := step_eq_next_iff.1 h
  refine ⟨fun ht => ?_, fun ht => ?_⟩
  · cases hend with
    | committed hr _ _ _ _ => exact absurd hr (by simpa using ht)
    | _ => rfl
  · obtain ⟨-, ha, i, r, ho, hk, hh, rfl⟩ := hend.committed_of_running ht
    rcases handlerResult_nextIp hh with hip | ⟨lit, rfl, hip, -⟩
    · exact .inl ⟨hip, by simp only [commit_ip, hip]; omega⟩
    · have := lit.isLt
      exact .inr ⟨by rw [memRead_of_lt (by omega), ho]; rfl, lit, by rw [memRead_of_lt ha, hk]; rfl, hip,
        by simp only [commit_ip, hip]; omega⟩

end Sys2Proof.Machine
end

section
/-! The Output Trace: it never feeds back (10_state.md R25), and the ports show what a step appended (R28). -/

namespace Sys2Proof.Machine

/-- The state with values put before its trace. -/
def withEarlier (earlier : List OutVal) (s : State) : State := { s with trace := earlier ++ s.trace }

theorem handlerResult_withEarlier (i : Instr) (earlier : List OutVal) (s : State) :
    handlerResult i (withEarlier earlier s) = handlerResult i s := by
  cases i <;> rfl

theorem commit_withEarlier (earlier : List OutVal) (s : State) (h : HandlerResult) :
    commit (withEarlier earlier s) h = withEarlier earlier (commit s h) := by
  obtain ⟨wr, ip, em⟩ := h
  have ht : appendOut (earlier ++ s.trace) em = earlier ++ appendOut s.trace em := by
    cases em <;> simp [appendOut]
  rcases wr with _ | ⟨_ | _ | _, v⟩ <;> simp [commit, withEarlier, ht]

theorem StepEnd.withEarlier {s t : State} (earlier : List OutVal) (h : StepEnd s t) :
    StepEnd (withEarlier earlier s) (withEarlier earlier t) := by
  cases h with
  | stopped hs => exact .stopped hs
  | halted hr hu => exact .halted (s := Machine.withEarlier earlier s) hr hu
  | invalidOpcode hr ha h8 => exact .invalidOpcode (s := Machine.withEarlier earlier s) hr ha h8
  | handlerFault hr ha ho hk hh =>
    exact .handlerFault (s := Machine.withEarlier earlier s) hr ha ho hk
      ((handlerResult_withEarlier _ _ _).trans hh)
  | committed hr ha ho hk hh =>
    rw [← commit_withEarlier]
    exact .committed hr ha ho hk ((handlerResult_withEarlier _ _ _).trans hh)

/-- Settles O21, by induction on the number of steps. -/
theorem emittedValuesNeverFeedBack : Obligations.EmittedValuesNeverFeedBack := by
  intro k s t earlier h
  change steps k (withEarlier earlier s) = .next (withEarlier earlier t)
  induction k generalizing s with
  | zero => cases h; rfl
  | succ k ih =>
    obtain ⟨u, hu, h⟩ := steps_succ_eq_next.1 h
    have hstep := step_eq_next_iff.2 ((step_eq_next_iff.1 hu).withEarlier earlier)
    exact steps_succ_eq_next.2 ⟨_, hstep, ih u h⟩

/-- The port logic finds the value that was appended. -/
theorem appended_of_trace {s t : State} {em : Option OutVal} (h : t.trace = appendOut s.trace em) :
    appended s t = em := by
  cases em <;> simp [appended, h, appendOut]

theorem opcodeByte_eq_out {i : Instr} : opcodeByte i = 5 ↔ ∃ k, i = .out k := by
  cases i <;> simp [opcodeByte]

/-- What a step appends to the trace, and that it appends exactly where it commits an OUT (44_output.md R81). -/
theorem StepEnd.trace_eq {s t : State} (h : StepEnd s t) :
    ∃ em, t.trace = appendOut s.trace em ∧ (em.isSome = true ↔
      s.status = .running ∧ t.status = .running ∧ s.ip + 1 < s.size ∧ memRead s s.ip = .ok 5) := by
  cases h with
  | stopped hs => exact ⟨none, rfl, by simp [hs]⟩
  | halted hr hu => exact ⟨none, rfl, by simp⟩
  | invalidOpcode hr ha h8 => exact ⟨none, rfl, by simp⟩
  | handlerFault hr ha ho hk hh => exact ⟨none, rfl, by simp⟩
  | committed hr ha ho hk hh =>
    refine ⟨_, commit_trace s _, ?_⟩
    rw [handlerResult_emits hh, ← opcodeByte_eq_out, memRead_of_lt (by omega), ho]
    simp [hr, ha]

/-- Settles O35: the ports show the value the step appended, if it appended one. -/
theorem outputPortsShowTheStep : Obligations.OutputPortsShowTheStep := by
  intro s t h
  obtain ⟨em, ht, hem⟩ := (step_eq_next_iff.1 h).trace_eq
  have happ := appended_of_trace ht
  refine ⟨by simpa only [portsAfter, happ] using hem, ?_, rfl, rfl, rfl, rfl, rfl⟩
  cases em <;> simp [portsAfter, happ, ht, appendOut]

end Sys2Proof.Machine
end

section
/-! The registers an instruction reads and writes, the frame of its execution, and the bounds of what it
writes (10_state.md R13, R15, R16). -/

namespace Sys2Proof.Machine

/-- A register outside the write select holds after a commit what it held before (10_state.md R15). -/
theorem readReg_commit_of_not_written {i : Instr} {s : State} {h : HandlerResult} {r : Reg}
    (hh : handlerResult i s = .ok h) (hr : regWrites i ≠ some r) : readReg (commit s h) r = readReg s r := by
  have hw := handlerResult_writes hh
  have hc : readReg (commit s h) r = readReg (writePort s h.wr) r := by cases r <;> rfl
  rw [hc]
  rcases hwr : h.wr with _ | ⟨q, v⟩
  · rfl
  · rw [hwr] at hw
    rw [readReg_writePort, if_neg]
    rintro rfl
    exact hr hw.symm

theorem readReg_raiseFault (s : State) (f : FaultReason) (r : Reg) :
    readReg (raiseFault s f) r = readReg s r := by
  cases r <;> rfl

theorem readReg_exec_of_not_written {i : Instr} {s t : State} {r : Reg} (h : exec i s = .next t)
    (hr : regWrites i ≠ some r) : readReg t r = readReg s r := by
  rcases exec_next_iff.1 h with ⟨_, hh, rfl⟩ | ⟨f, -, rfl⟩
  · exact readReg_commit_of_not_written hh hr
  · exact readReg_raiseFault s f r

/-! ### Noninterference of the registers that are not read -/

theorem readReg_writePort_of_ne {s : State} {r q : Reg} (v : Word) (h : q ≠ r) :
    readReg (writePort s (some (r, v))) q = readReg s q := by
  rw [readReg_writePort, if_neg h]

theorem combo_writePort {s : State} {k : Byte} {r : Reg} (v : Word) (hr : r ∉ comboReads k) :
    combo (writePort s (some (r, v))) k = combo s k := by
  have hv : comboValue (writePort s (some (r, v))) k = comboValue s k := by
    unfold comboValue
    cases hi : indexedReg k.toNat with
    | none => rfl
    | some q =>
      have hq : q ≠ r := by
        rintro rfl
        simp [comboReads, hi] at hr
      exact readReg_writePort_of_ne v hq
  rw [combo, combo, hv]

theorem divideA_writePort {s : State} {k : Byte} {r : Reg} (v : Word) (hr : r ∉ Reg.a :: comboReads k) :
    divideA (writePort s (some (r, v))) k = divideA s k := by
  obtain ⟨ha, hk⟩ := not_or.1 (List.mem_cons.not.1 hr)
  have hs : (writePort s (some (r, v))).a = s.a := readReg_writePort_of_ne (q := .a) v (Ne.symm ha)
  rw [divideA, divideA, combo_writePort v hk, hs, writePort_policies]

/-- A register that an instruction does not read plays no part in what its handler answers (10_state.md R13). -/
theorem handlerResult_writePort {i : Instr} {s : State} {r : Reg} (v : Word) (hr : r ∉ regReads i) :
    handlerResult i (writePort s (some (r, v))) = handlerResult i s := by
  have hw : ∀ q, writeResult (writePort s (some (r, v))) q = writeResult s q := fun q => by
    funext d
    rw [writeResult, writeResult, writePort_ip]
  have hread : ∀ q ∈ regReads i, readReg (writePort s (some (r, v))) q = readReg s q := fun q hq =>
    readReg_writePort_of_ne v fun h => hr (h ▸ hq)
  cases i with
  | adv k => simp only [handlerResult, advHandler, divideA_writePort v hr, hw]
  | bdv k => simp only [handlerResult, bdvHandler, divideA_writePort v hr, hw]
  | cdv k => simp only [handlerResult, cdvHandler, divideA_writePort v hr, hw]
  | bst k => simp only [handlerResult, bstHandler, combo_writePort v hr, hw]
  | out k => simp only [handlerResult, outHandler, combo_writePort v hr, writePort_ip]
  | bxl lit =>
    have hb : (writePort s (some (r, v))).b = s.b := hread .b (by simp [regReads])
    simp only [handlerResult, bxlHandler, hb, hw]
  | bxc x =>
    have hb : (writePort s (some (r, v))).b = s.b := hread .b (by simp [regReads])
    have hc : (writePort s (some (r, v))).c = s.c := hread .c (by simp [regReads])
    simp only [handlerResult, bxcHandler, hb, hc, hw]
  | jnz lit =>
    have ha : (writePort s (some (r, v))).a = s.a := hread .a (by simp [regReads])
    have hj : jumpIp (writePort s (some (r, v))) lit = jumpIp s lit := by
      rw [jumpIp, jumpIp, aIsZero, aIsZero, ha, writePort_ip, writePort_policies]
    simp only [handlerResult, jnzHandler, hj]

/-- The fault commits nothing, so it leaves another value of a register where it is. -/
theorem raiseFault_writePort (s : State) (r : Reg) (v : Word) (f : FaultReason) :
    raiseFault (writePort s (some (r, v))) f = writePort (raiseFault s f) (some (r, v)) := by
  cases r <;> rfl

/-- A commit overwrites another value of the register that it writes. -/
theorem commit_writePort_of_written {s : State} {h : HandlerResult} {r : Reg} (v : Word)
    (hw : h.wr.map Prod.fst = some r) :
    commit (writePort s (some (r, v))) h = writePort (commit s h) (some (r, readReg (commit s h) r)) := by
  rcases h with ⟨_ | ⟨q, d⟩, ip, em⟩ <;> cases hw
  cases q <;> rfl

/-- A commit leaves another value of a register that it does not write where it is. -/
theorem commit_writePort_of_not_written {s : State} {h : HandlerResult} {r : Reg} (v : Word)
    (hw : h.wr.map Prod.fst ≠ some r) :
    commit (writePort s (some (r, v))) h = writePort (commit s h) (some (r, v)) := by
  rcases h with ⟨_ | ⟨q, d⟩, ip, em⟩
  · cases r <;> rfl
  · cases q <;> cases r <;> simp_all [commit]

/-- An execution with any value in a register it does not read is the same execution, but for that register:
it ends with what the instruction wrote, or with the value it was given. -/
theorem exec_writePort {i : Instr} {s t : State} {r : Reg} (v : Word) (h : exec i s = .next t)
    (hr : r ∉ regReads i) :
    ∃ w, exec i (writePort s (some (r, v))) = .next (writePort t (some (r, w))) ∧
      (regWrites i = some r ∧ t.status = s.status ∧ s.status = .running → w = readReg t r) ∧
      (regWrites i ≠ some r → w = v) := by
  have hres := handlerResult_writePort (s := s) v hr
  rw [exec_eq_finish, hres]
  rcases exec_next_iff.1 h with ⟨c, hh, rfl⟩ | ⟨f, hh, rfl⟩ <;> rw [hh]
  · have hw := handlerResult_writes hh
    by_cases hwr : regWrites i = some r
    · exact ⟨_, congrArg _ (commit_writePort_of_written v (hw.trans hwr)), fun _ => rfl,
        fun hne => absurd hwr hne⟩
    · exact ⟨v, congrArg _ (commit_writePort_of_not_written v (hw.trans_ne hwr)), fun hc => absurd hc.1 hwr,
        fun _ => rfl⟩
  · refine ⟨v, congrArg _ (raiseFault_writePort s r v f), ?_, fun _ => rfl⟩
    rintro ⟨-, hst, hrun⟩
    rw [hrun] at hst
    cases hst

/-- The one instruction that writes A reads it. -/
theorem regWrites_ne_a {i : Instr} (h : .a ∉ regReads i) : regWrites i ≠ some .a := by
  cases i <;> simp_all [regReads, regWrites]

/-- Settles O36: no register outside the write select changes, and none outside the reads plays a part. -/
theorem registersReadAndWrittenFollowTheTable : Obligations.RegistersReadAndWrittenFollowTheTable := by
  refine ⟨fun i s t h => ?_, fun i s t v h => ⟨fun ha => ?_, fun hb => ?_, fun hc => ?_⟩⟩
  · have hw : ∀ r, readReg t r ≠ readReg s r → regWrites i = some r := fun r =>
      not_imp_comm.1 (readReg_exec_of_not_written h)
    exact ⟨hw .a, hw .b, hw .c⟩
  · obtain ⟨w, hw, -, hv⟩ := exec_writePort v h ha
    rwa [hv (regWrites_ne_a ha)] at hw
  · exact exec_writePort v h hb
  · exact exec_writePort v h hc

/-! ### The frame of an execution -/

/-- An execution leaves the Program Store, its length and the policies as they are. -/
theorem exec_store {i : Instr} {s t : State} (h : exec i s = .next t) :
    t.mem = s.mem ∧ t.size = s.size ∧ t.policies = s.policies := by
  rcases exec_next_iff.1 h with ⟨_, -, rfl⟩ | ⟨_, -, rfl⟩ <;> simp

/-- Only OUT appends to the trace (44_output.md R81). -/
theorem exec_trace {i : Instr} {s t : State} (h : exec i s = .next t) (hi : ∀ k, i ≠ .out k) :
    t.trace = s.trace := by
  rcases exec_next_iff.1 h with ⟨r, hh, rfl⟩ | ⟨_, -, rfl⟩
  · have hem : r.em = none := by
      rw [← Option.not_isSome_iff_eq_none, handlerResult_emits hh, not_exists]
      exact hi
    rw [commit_trace, hem, appendOut]
  · rfl

/-- Settles O37: the frame of a commit, and the fault as one update. -/
theorem executionLeavesTheRestUnchanged : Obligations.ExecutionLeavesTheRestUnchanged := by
  intro i s t h
  obtain ⟨hm, hn, hp⟩ := exec_store h
  refine ⟨memRead_congr hm hn, hn, hp, fun _ => readReg_exec_of_not_written h, exec_trace h, ?_⟩
  rcases exec_next_iff.1 h with ⟨r, -, rfl⟩ | ⟨f, -, rfl⟩
  · exact .inl ⟨commit_status s r, commit_fault s r⟩
  · exact .inr ⟨f, rfl⟩

/-! ### The bounds of what is written -/

/-- The end of a handler that leaves the machine Running is the commit of its value. -/
theorem finish_map_running {α : Type} {e : Except FaultReason α} {f : α → HandlerResult} {s t : State}
    (h : finish s (e.map f) = .next t) (ht : t.status = .running) :
    ∃ v, e = .ok v ∧ t = commit s (f v) := by
  cases e with
  | ok v => cases h; exact ⟨v, rfl, rfl⟩
  | error r => cases h; cases ht

/-- A division handler's quotient is at most the old A (10_state.md R16). -/
theorem divideA_le {s : State} {k : Byte} {q : Word} (h : divideA s k = .ok q) : q.toNat ≤ s.a.toNat := by
  cases hc : combo s k with
  | error r => rw [divideA, hc] at h; cases h
  | ok v =>
    rw [divideA_of_combo hc] at h
    by_cases hv : v.toNat < 64 ∨ s.policies.largeShift = .zero
    · rw [shr_ok hv] at h
      cases h
      rw [quotient_toNat]
      exact Nat.div_le_self _ _
    · obtain ⟨h64, hpol⟩ := not_or.1 hv
      rw [shr_of_ge (by omega)] at h
      cases hp : s.policies.largeShift with
      | zero => exact absurd hp hpol
      | fault => rw [hp] at h; cases h

/-- A division that leaves the machine Running has put at most the old A into its register. -/
theorem division_le {s t : State} {k : Byte} {r : Reg}
    (h : finish s ((divideA s k).map (writeResult s r)) = .next t) (ht : t.status = .running) :
    (readReg t r).toNat ≤ s.a.toNat := by
  obtain ⟨q, hq, rfl⟩ := finish_map_running h ht
  have hr : readReg (commit s (writeResult s r q)) r = q := by cases r <;> rfl
  rw [hr]
  exact divideA_le hq

/-- Settles O38: the committed value of each handler that writes a register. -/
theorem registerWritesStayBelowTheWordSize : Obligations.RegisterWritesStayBelowTheWordSize := by
  intro s t k _ ht
  refine ⟨fun h => division_le (r := .a) h ht, fun h => division_le (r := .b) h ht,
    fun h => division_le (r := .c) h ht, fun h => ?_, fun h => ?_, fun h => ?_⟩
  · obtain ⟨v, -, rfl⟩ := finish_map_running h ht
    change (zext3 (low3 v)).toNat < 8
    rw [zext3_toNat]
    exact (low3 v).isLt
  · cases h
    change (s.b ^^^ literal k).toNat = _
    rw [BitVec.toNat_xor, literal_toNat]
  · cases h
    exact BitVec.toNat_xor s.b s.c

end Sys2Proof.Machine
end

section
/-! The Program Store and the policies are the ones of the first state along every run (20_memory.md R39). -/

namespace Sys2Proof.Machine

/-- `t` holds the Program Store, its length and the policies of `s`: what no step changes. -/
def SameStore (s t : State) : Prop := t.mem = s.mem ∧ t.size = s.size ∧ t.policies = s.policies

theorem SameStore.refl (s : State) : SameStore s s := ⟨rfl, rfl, rfl⟩

theorem SameStore.trans {s t u : State} (hst : SameStore s t) (htu : SameStore t u) : SameStore s u := by
  obtain ⟨hm, hn, hp⟩ := hst
  obtain ⟨hm', hn', hp'⟩ := htu
  exact ⟨hm'.trans hm, hn'.trans hn, hp'.trans hp⟩

/-- None of the ends of a step writes the Program Store. -/
theorem StepEnd.sameStore {s t : State} (h : StepEnd s t) : SameStore s t := by
  cases h with
  | stopped _ => exact .refl s
  | halted _ _ => exact ⟨haltStep_mem s, haltStep_size s, haltStep_policies s⟩
  | invalidOpcode _ _ _ => exact ⟨raiseFault_mem s _, raiseFault_size s _, raiseFault_policies s _⟩
  | handlerFault _ _ _ _ _ => exact ⟨raiseFault_mem s _, raiseFault_size s _, raiseFault_policies s _⟩
  | committed _ _ _ _ _ => exact ⟨commit_mem s _, commit_size s _, commit_policies s _⟩

theorem steps_sameStore {k : Nat} {s t : State} (h : steps k s = .next t) : SameStore s t :=
  steps_keep (P := SameStore s) (fun _ _ hu hstep => hu.trans (step_eq_next_iff.1 hstep).sameStore)
    (.refl s) h

/-- Settles O18: a read depends on the store and its length alone, and any number of steps keeps both. -/
theorem theProgramStoreNeverChanges : Obligations.TheProgramStoreNeverChanges := by
  intro k s t h
  obtain ⟨hm, hn, hp⟩ := steps_sameStore h
  exact ⟨hn, hp, memRead_congr hm hn⟩

end Sys2Proof.Machine
end

section
/-! The decoder and the encoder as one correspondence (30_encoding.md R41 to R43, R49 to R52): of bytes, of
table words, and of the pairs a step fetches. -/

namespace Sys2Proof

theorem decode_encode_append (i : Instr) (rest : List Byte) : decode (encode i ++ rest) = .ok (i, rest) := by
  rw [encode, List.cons_append, List.cons_append, List.nil_append, decode_cons_cons, decodePair_encode]
  rfl

theorem decode_of_short {bytes : List Byte} (h : bytes.length < 2) :
    decode bytes = .error .pairUnavailable := by
  match bytes, h with
  | [], _ => rfl
  | [_], _ => rfl

theorem decode_of_invalidOpcode {opcode : Byte} (operand : Byte) (rest : List Byte) (h : 8 ≤ opcode.toNat) :
    decode (opcode :: operand :: rest) = .error (.invalidOpcode opcode) := by
  rw [decode_cons_cons, decodePair_eq_error.2 ⟨h, rfl⟩]
  rfl

/-- A byte sequence is too short, or begins with an instruction's two bytes, or with an opcode byte of 8 or
more. -/
theorem bytes_cases (bytes : List Byte) :
    bytes.length < 2 ∨ (∃ i rest, bytes = encode i ++ rest) ∨
      ∃ opcode operand rest, bytes = opcode :: operand :: rest ∧ 8 ≤ opcode.toNat := by
  match bytes with
  | [] => exact .inl (by simp)
  | [_] => exact .inl (by simp)
  | opcode :: operand :: rest =>
    rcases decodePair_cases opcode operand with ⟨i, hi⟩ | ⟨h8, -⟩
    · obtain ⟨rfl, rfl⟩ := decodePair_eq_ok.1 hi
      exact .inr (.inl ⟨i, rest, rfl⟩)
    · exact .inr (.inr ⟨opcode, operand, rest, rfl, h8⟩)

theorem decode_eq_ok_iff {bytes rest : List Byte} {i : Instr} :
    decode bytes = .ok (i, rest) ↔ bytes = encode i ++ rest := by
  constructor
  · intro h
    rcases bytes_cases bytes with hs | ⟨j, rest', rfl⟩ | ⟨_, _, _, rfl, h8⟩
    · rw [decode_of_short hs] at h; cases h
    · rw [decode_encode_append] at h; cases h; rfl
    · rw [decode_of_invalidOpcode _ _ h8] at h; cases h
  · rintro rfl
    exact decode_encode_append i rest

theorem decode_eq_pairUnavailable_iff {bytes : List Byte} :
    decode bytes = .error .pairUnavailable ↔ bytes.length < 2 := by
  refine ⟨fun h => ?_, decode_of_short⟩
  rcases bytes_cases bytes with hs | ⟨j, rest', rfl⟩ | ⟨_, _, _, rfl, h8⟩
  · exact hs
  · rw [decode_encode_append] at h; cases h
  · rw [decode_of_invalidOpcode _ _ h8] at h; cases h

theorem decode_eq_invalidOpcode_iff {bytes : List Byte} {opcode : Byte} :
    decode bytes = .error (.invalidOpcode opcode) ↔
      ∃ operand rest, bytes = opcode :: operand :: rest ∧ 8 ≤ opcode.toNat := by
  constructor
  · intro h
    rcases bytes_cases bytes with hs | ⟨j, rest', rfl⟩ | ⟨_, operand, rest, rfl, h8⟩
    · rw [decode_of_short hs] at h; cases h
    · rw [decode_encode_append] at h; cases h
    · rw [decode_of_invalidOpcode _ _ h8] at h; cases h
      exact ⟨operand, rest, rfl, h8⟩
  · rintro ⟨operand, rest, rfl, h8⟩
    exact decode_of_invalidOpcode operand rest h8

/-- Settles O41: a byte sequence is of one of three kinds, and each kind has its own answer. -/
theorem decodeAndEncodeAgree : Obligations.DecodeAndEncodeAgree :=
  fun _ => ⟨fun _ _ => decode_eq_ok_iff, decode_eq_pairUnavailable_iff,
    fun _ => decode_eq_invalidOpcode_iff⟩

/-! ### Table words (30_encoding.md R43) -/

theorem decodeTableWord_tableWord (i : Instr) : decodeTableWord 16 (tableWord i) = some i :=
  (Laws.Wire.word_of_pair (decodePair_encode i)).2

/-- A 16-bit word is its high byte and its low byte. -/
theorem word_eq_bytes {w : Nat} (hw : w < 2 ^ 16) :
    (BitVec.ofNat 8 (w / 256)).toNat = w / 256 ∧
      (BitVec.ofNat 8 (w / 256)).toNat * 256 + (BitVec.ofNat 8 w).toNat = w := by
  simp only [BitVec.toNat_ofNat]
  omega

/-- A word whose high byte is no opcode decodes to nothing. -/
theorem decodeTableWord_eq_none {w : Nat} (hw : w < 2 ^ 16) (h : 8 ≤ w / 256) :
    decodeTableWord 16 w = none := by
  rw [decodeTableWord, tableWordBytes, Nat.mod_eq_of_lt hw,
    decode_of_invalidOpcode _ _ (by rw [(word_eq_bytes hw).1]; exact h)]

/-- Settles O42: a word's two bytes are a pair of the router, and an instruction is read back from its own
word, so no other instruction has it. -/
theorem tableWordsAndInstructionsCorrespond : Obligations.TableWordsAndInstructionsCorrespond := by
  intro w hw
  refine ⟨fun h7 => ?_, decodeTableWord_eq_none hw⟩
  obtain ⟨hhigh, hword⟩ := word_eq_bytes hw
  rcases decodePair_cases (BitVec.ofNat 8 (w / 256)) (BitVec.ofNat 8 w) with ⟨i, hi⟩ | ⟨h8, -⟩
  · have hi' : tableWord i = w := by
      obtain ⟨ho, hk⟩ := decodePair_eq_ok.1 hi
      rw [tableWord, ← ho, ← hk, hword]
    refine ⟨i, hi' ▸ decodeTableWord_tableWord i, hi', fun j hj => ?_⟩
    have hji := decodeTableWord_tableWord j
    rw [hj, ← hi', decodeTableWord_tableWord i] at hji
    exact (Option.some.inj hji).symm
  · omega

end Sys2Proof

namespace Sys2Proof.Machine

/-! ### The router (30_encoding.md R49) -/

/-- The step of a fetched pair that is an instruction's. -/
theorem step_of_pair_encode {s : State} {i : Instr} (hr : s.status = .running)
    (h1 : memRead s s.ip = .ok (opcodeByte i)) (h2 : memRead s (s.ip + 1) = .ok i.operand) :
    step s = exec i s := by
  obtain ⟨-, -, -, h⟩ := step_of_pair hr h1 h2
  rw [h, dispatchPair, decodePair_encode]

theorem dispatchPair_of_invalidOpcode (s : State) {opcode : Byte} (operand : Byte) (h : 8 ≤ opcode.toNat) :
    dispatchPair s opcode operand = .next (raiseFault s .invalidOpcode) := by
  rw [dispatchPair, decodePair_eq_error.2 ⟨h, rfl⟩]

/-- Settles O11: each of the opcode bytes 0 to 7 is an instruction's, and the router has no other arm. -/
theorem theRouterSelectsByOpcodeByte : Obligations.TheRouterSelectsByOpcodeByte := by
  intro s opcode operand hr h1 h2
  have run : ∀ i, opcode = opcodeByte i → operand = i.operand → step s = exec i s := by
    rintro i rfl rfl
    exact step_of_pair_encode hr h1 h2
  refine ⟨fun h => run _ h rfl, fun h => run _ h rfl, fun h => run _ h rfl, fun h => run _ h rfl,
    fun h => run _ h rfl, fun h => run _ h rfl, fun h => run _ h rfl, fun h => run _ h rfl, fun h8 => ?_⟩
  obtain ⟨-, -, -, h⟩ := step_of_pair hr h1 h2
  rw [h, dispatchPair_of_invalidOpcode s operand h8]
  rfl

/-! ### Encoded programs (30_encoding.md R41, 20_memory.md R31) -/

/-- The Program Store of a load of bytes reads as those bytes. -/
theorem memByte_loadedState_bytes (policies : Policies) (bytes : List Byte) (a0 b0 c0 i : Nat) :
    memByte (loadedState policies
      { program := bytes.map BitVec.toNat, a0 := a0, b0 := b0, c0 := c0 }).mem i =
        bytes.getD i memDefault := by
  have hbytes : (bytes.map BitVec.toNat).map (BitVec.ofNat 8) = bytes := by simp [Function.comp_def]
  have h := memByte_memOfBytes 0 bytes i
  rw [Nat.zero_add] at h
  rw [loadedState, hbytes, h]

/-- Settles O45: the pair number `j` of the loaded bytes stands at `2 * j`, below the length. -/
theorem encodedProgramsAreFetchedBack : Obligations.EncodedProgramsAreFetchedBack := by
  intro policies is a0 b0 c0 s hl j i u hj hm hn hr hip
  obtain ⟨-, rfl⟩ := load_eq_ok hl
  obtain ⟨ho, hk⟩ := encodeProgram_pair hj memDefault
  have hlt : j < is.length := (List.getElem?_eq_some_iff.1 hj).1
  have ha : u.ip + 1 < u.size := by
    simp only [hn, hip, loadedState, List.length_map, encodeProgram_length]
    omega
  rw [exec_eq_finish]
  apply step_of_instr hr ha
  · rw [hm, hip, memByte_loadedState_bytes, ho]
  · rw [hm, hip, memByte_loadedState_bytes, hk]

/-! ### Operands and illegal encodings (30_encoding.md R46 to R48, R51) -/

theorem combo_of_le (s : State) {k : Byte} (h : k.toNat ≤ 3) : combo s k = .ok (zextW k) := by
  rw [combo, if_pos ((comboValid_iff k).2 (by omega)), comboValue_of_le h]

/-- Settles O23: the resolver's cases, each decided by the operand byte. -/
theorem comboOperandsResolve : Obligations.ComboOperandsResolve := by
  intro s k
  have hvalid : comboValid k = true ↔ ∃ v, combo s k = .ok v := by
    rw [comboValid_iff]
    exact ⟨combo_of_valid, fun ⟨_, hv⟩ => combo_ok hv⟩
  refine ⟨fun h => ⟨zextW k, combo_of_le s h, zextW_toNat k⟩, fun h => ?_, fun h => ?_, fun h => ?_,
    combo_of_invalid, hvalid⟩ <;>
    rcases combo_cases s k with ⟨hk, hc⟩ | ⟨hk, hc⟩ | ⟨hk, hc⟩ | ⟨hk, hc⟩ | ⟨hk, hc⟩ <;> simp_all

theorem wellFormed_eq_false_iff (i : Instr) :
    i.wellFormed = false ↔ i.mode = .combo ∧ 7 ≤ i.operand.toNat := by
  rw [Instr.wellFormed]
  cases i.mode with
  | combo => simp only [Mode.legal, decide_eq_false_iff_not, true_and]; omega
  | literal => simp [Mode.legal]
  | ignored => simp [Mode.legal]

/-- A combo handler resolves its operand first (60_exceptions.md R85). -/
theorem handlerResult_of_illegal_operand {i : Instr} (s : State) (hm : i.mode = .combo)
    (h7 : 7 ≤ i.operand.toNat) : handlerResult i s = .error .invalidCombo := by
  cases i with
  | adv k => exact congrArg (Except.map (writeResult s .a)) (divideA_of_invalid h7)
  | bdv k => exact congrArg (Except.map (writeResult s .b)) (divideA_of_invalid h7)
  | cdv k => exact congrArg (Except.map (writeResult s .c)) (divideA_of_invalid h7)
  | bst k => exact congrArg (Except.map _) (combo_of_invalid h7)
  | out k => exact congrArg (Except.map _) (combo_of_invalid h7)
  | bxl _ => cases hm
  | jnz _ => cases hm
  | bxc _ => cases hm

/-- No committed instruction stays where it is: a JNZ to itself falls through (43_control.md R78). -/
theorem handlerResult_nextIp_ne {i : Instr} {s : State} {h : HandlerResult} (hh : handlerResult i s = .ok h) :
    h.nextIp ≠ s.ip := by
  obtain ⟨-, -, hip | ⟨lit, -, hj⟩⟩ := handlerResult_shape hh
  · omega
  · rcases jumpIp_cases s lit with ⟨-, hc⟩ | ⟨-, -, -, -, hc⟩ | ⟨-, hne, -, hc⟩ <;>
      rw [hc] at hj
    · have := Except.ok.inj hj
      omega
    · cases hj
    · rwa [← Except.ok.inj hj]

/-- A legal operand never raises `InvalidCombo`. -/
theorem exec_ne_invalidCombo {i : Instr} {s t : State} (hw : i.wellFormed = true) (h : exec i s = .next t) :
    t ≠ raiseFault s .invalidCombo := by
  intro ht
  rcases exec_next_iff.1 h with ⟨r, hh, rfl⟩ | ⟨f, hh, rfl⟩
  · exact handlerResult_nextIp_ne hh (congrArg State.ip ht)
  · obtain rfl : f = .invalidCombo := by simpa using congrArg State.fault ht
    rcases handlerResult_error hh with ⟨hm, h7, -⟩ | ⟨-, hf, -⟩ | ⟨-, hf, -⟩
    · rw [(wellFormed_eq_false_iff i).2 ⟨hm, h7⟩] at hw
      cases hw
    · cases hf
    · cases hf

/-- Settles O44: an illegal operand is the first thing a combo handler finds, a legal one leaves only other
faults or a commit, which moves `ip`. -/
theorem illegalEncodingsFault : Obligations.IllegalEncodingsFault := by
  refine ⟨wellFormed_eq_false_iff, fun i s hw => ?_, fun _ _ _ => exec_ne_invalidCombo,
    fun s opcode hr ha ho h8 => ?_⟩
  · obtain ⟨hm, h7⟩ := (wellFormed_eq_false_iff i).1 hw
    rw [exec_eq_finish, handlerResult_of_illegal_operand s hm h7, finish_error]
  · rw [memRead_of_lt (by omega)] at ho
    obtain rfl := Except.ok.inj ho
    rw [step_of_available hr ha, dispatchPair_of_invalidOpcode s _ h8]

/-- Settles O24: the BXC handler does not take the operand byte and always commits; without that byte no
pair is available. -/
theorem theIgnoredOperandPlaysNoPart : Obligations.TheIgnoredOperandPlaysNoPart := by
  refine ⟨fun _ _ _ => rfl, fun s x => ?_, fun s hr _ hn => ?_⟩
  · exact ⟨commit s (writeResult s .b (s.b ^^^ s.c)), rfl, commit_status s _, commit_fault s _⟩
  · exact step_of_unavailable hr (by omega)

end Sys2Proof.Machine
end

section
/-! The rendered texts read back: the Output Trace and the assembly text (30_encoding.md R53, R58, R59). -/

namespace Sys2Proof.Machine

/-! ### The Output Trace -/

theorem renderTrace_eq_joinText (T : List OutVal) :
    renderTrace T = joinText ',' (T.map (fun v => [digitChar v.toNat])) := by
  induction T with
  | nil => rfl
  | cons v T ih =>
    cases T with
    | nil => rfl
    | cons w T => exact congrArg (digitChar v.toNat :: ',' :: ·) ih

/-- The one decimal digit of a trace value. -/
def outDigits (v : OutVal) : List (Fin 10) := [v.toFin.castLE (by decide)]

theorem numberText_outDigits (v : OutVal) : numberText (outDigits v) = [digitChar v.toNat] := rfl

theorem numberValue_outDigits (v : OutVal) : numberValue (outDigits v) = v.toNat := Nat.zero_add _

/-- Settles O49: the pieces between the commas are the values' own digits. -/
theorem aRenderedTraceReadsBack : Obligations.ARenderedTraceReadsBack := by
  refine ⟨rfl, fun T hT => ?_, renderTrace_eq_joinText⟩
  have htext : renderTrace T = joinText ',' ((T.map outDigits).map numberText) := by
    rw [renderTrace_eq_joinText, List.map_map]
    rfl
  have hcomma : ∀ p ∈ (T.map outDigits).map numberText, ',' ∉ p := by
    simp [not_mem_numberText (ch := ',') (by decide)]
  have hdigits : ∀ ds ∈ T.map outDigits, ds ≠ [] := by simp [outDigits]
  rw [htext, splitText_joinText (by simpa using hT) hcomma, readNumbers_numberText hdigits, List.map_map]
  simp [Function.comp_def, numberValue_outDigits]

/-! ### The assembly text -/

/-- The decimal digits of a number below 1000, without leading zeros. -/
def decimalDigits (n : Nat) : List (Fin 10) :=
  if n < 10 then [Fin.ofNat 10 n]
  else if n < 100 then [Fin.ofNat 10 (n / 10), Fin.ofNat 10 n]
  else [Fin.ofNat 10 (n / 100), Fin.ofNat 10 (n / 10), Fin.ofNat 10 n]

theorem decimalDigits_ne_nil (n : Nat) : decimalDigits n ≠ [] := by
  unfold decimalDigits
  split_ifs <;> exact List.cons_ne_nil _ _

theorem numberValue_decimalDigits {n : Nat} (h : n < 1000) : numberValue (decimalDigits n) = n := by
  unfold decimalDigits
  split_ifs <;> simp only [numberValue, List.foldl_cons, List.foldl_nil, Fin.val_ofNat] <;> omega

theorem byteText_eq_numberText (v : Byte) : byteText v = numberText (decimalDigits v.toNat) := by
  have hv := v.isLt
  unfold byteText decimalDigits
  split_ifs with h10 h100 <;> simp only [numberText, List.map_cons, List.map_nil, Fin.val_ofNat]
  · rw [Nat.mod_eq_of_lt h10]
  · rw [Nat.mod_eq_of_lt (a := v.toNat / 10) (by omega)]
  · rw [Nat.mod_eq_of_lt (a := v.toNat / 100) (by omega)]

theorem readNumber_byteText (v : Byte) : readNumber (byteText v) = .ok v.toNat := by
  have hv := v.isLt
  rw [byteText_eq_numberText, readNumber_numberText (decimalDigits_ne_nil _),
    numberValue_decimalDigits (by omega)]

theorem ofMnemonic_mnemonicText (i : Instr) : ofMnemonic (mnemonicText i) i.operand = some i := by
  cases i <;> rfl

theorem space_not_mem_mnemonicText (i : Instr) : ' ' ∉ mnemonicText i := by
  cases i <;> simp [mnemonicText]

theorem readAssembly_assemblyText (i : Instr) : readAssembly (assemblyText i) = some i := by
  rw [readAssembly, assemblyText, breakText_append (space_not_mem_mnemonicText i)]
  simp only [readNumber_byteText, if_pos i.operand.isLt, BitVec.ofNat_toNat, BitVec.setWidth_eq,
    ofMnemonic_mnemonicText]

/-- Settles O50: the reader inverts the assembly text, so no two instructions share one. -/
theorem assemblyNotationReadsBack : Obligations.AssemblyNotationReadsBack := by
  refine ⟨readAssembly_assemblyText, fun i j h => ?_⟩
  have hij := readAssembly_assemblyText i
  rw [h, readAssembly_assemblyText j] at hij
  rw [Option.some.inj hij]

end Sys2Proof.Machine
end

section
/-! The program representation (30_encoding.md R54 to R57): what each line's reader accepts, so which texts
parse, and what the first broken expectation gives. -/

namespace Sys2Proof.Machine

/-! ### The lines' readers -/

theorem takeRegister_registerLine {r : Reg} {ds : List (Fin 10)} (h : ds ≠ []) (lines : List Text) :
    takeRegister r (registerLine r (numberText ds) :: lines) = .ok (numberValue ds, lines) := by
  rw [takeRegister, readRegisterLine_registerLine h]
  rfl

theorem takeRegister_eq_ok_iff {r : Reg} {lines rest : List Text} {n : Nat} :
    takeRegister r lines = .ok (n, rest) ↔
      ∃ ds, ds ≠ [] ∧ lines = registerLine r (numberText ds) :: rest ∧ n = numberValue ds := by
  constructor
  · intro h
    cases lines with
    | nil => cases h
    | cons line tail =>
      rw [takeRegister] at h
      cases hl : readRegisterLine r line with
      | error e => rw [hl] at h; cases h
      | ok m =>
        rw [hl] at h
        cases h
        obtain ⟨ds, hne, rfl, rfl⟩ := readRegisterLine_eq_ok hl
        exact ⟨ds, hne, rfl, rfl⟩
  · rintro ⟨ds, hne, rfl, rfl⟩
    exact takeRegister_registerLine hne rest

theorem takeRegister_error {r : Reg} {line : Text} {e : LoadError} (h : readRegisterLine r line = .error e)
    (lines : List Text) : takeRegister r (line :: lines) = .error e := by
  rw [takeRegister, h]
  rfl

theorem takeBlank_of_ne_nil {rest : List Text} (h : rest ≠ []) : takeBlank ([] :: rest) = .ok rest := by
  cases rest with
  | nil => exact absurd rfl h
  | cons next rest => rfl

theorem takeBlank_eq_ok_iff {lines rest : List Text} :
    takeBlank lines = .ok rest ↔ lines = [] :: rest ∧ rest ≠ [] := by
  constructor
  · intro h
    unfold takeBlank at h
    split at h <;> cases h
    exact ⟨rfl, List.cons_ne_nil _ _⟩
  · rintro ⟨rfl, h⟩
    exact takeBlank_of_ne_nil h

/-- A list that is one or more numbers joined by single commas (30_encoding.md R54, R55). -/
def IsProgramList (values : Text) (dps : List (List (Fin 10))) : Prop :=
  dps ≠ [] ∧ (∀ d ∈ dps, d ≠ []) ∧ values = joinText ',' (dps.map numberText)

/-- The numbers between the commas are read exactly from such a list. -/
theorem readNumbers_splitText_iff {values : Text} {ps : List Nat} :
    readNumbers (splitText ',' values) = .ok ps ↔
      ∃ dps, IsProgramList values dps ∧ ps = dps.map numberValue := by
  constructor
  · intro h
    obtain ⟨dps, hne, hsplit, rfl⟩ := readNumbers_eq_ok h
    refine ⟨dps, ⟨?_, hne, ?_⟩, rfl⟩
    · rintro rfl
      exact splitText_ne_nil _ _ hsplit
    · rw [← hsplit, joinText_splitText]
  · rintro ⟨dps, ⟨hdps, hne, rfl⟩, rfl⟩
    rw [splitText_joinText (by simpa using hdps) (by simp [not_mem_numberText (ch := ',') (by decide)]),
      readNumbers_numberText hne]

theorem takeProgram_programLine (values : Text) (rest : List Text) :
    takeProgram ((programKeyword ++ values) :: rest) =
      if rest = [] ∨ rest = [[]] then readNumbers (splitText ',' values) else .error .nonNumericValue := by
  rw [takeProgram, dropStart_append]

theorem takeProgram_eq_ok_iff {lines : List Text} {ps : List Nat} :
    takeProgram lines = .ok ps ↔
      ∃ values rest, lines = (programKeyword ++ values) :: rest ∧ (rest = [] ∨ rest = [[]]) ∧
        readNumbers (splitText ',' values) = .ok ps := by
  constructor
  · intro h
    cases lines with
    | nil => cases h
    | cons line rest =>
      cases hd : dropStart programKeyword line with
      | none => rw [takeProgram, hd] at h; cases h
      | some values =>
        obtain rfl := dropStart_eq_some hd
        rw [takeProgram_programLine] at h
        split at h
        · exact ⟨values, rest, rfl, by assumption, h⟩
        · cases h
  · rintro ⟨values, rest, rfl, hrest, h⟩
    rw [takeProgram_programLine, if_pos hrest, h]

/-- The parse is the five readers, one after the other. -/
theorem parseText_eq_ok_iff {text : Text} {x : LoadArgs} :
    parseText text = .ok x ↔
      ∃ afterA afterB afterC afterBlank,
        takeRegister .a (splitText lineEnd text) = .ok (x.a0, afterA) ∧
        takeRegister .b afterA = .ok (x.b0, afterB) ∧ takeRegister .c afterB = .ok (x.c0, afterC) ∧
        takeBlank afterC = .ok afterBlank ∧ takeProgram afterBlank = .ok x.program := by
  constructor
  · intro h
    unfold parseText at h
    split at h
    · cases h
    rename_i a0 afterA hA
    split at h
    · cases h
    rename_i b0 afterB hB
    split at h
    · cases h
    rename_i c0 afterC hC
    split at h
    · cases h
    rename_i afterBlank hblank
    cases hP : takeProgram afterBlank with
    | error e => rw [hP] at h; cases h
    | ok ps =>
      rw [hP] at h
      cases h
      exact ⟨afterA, afterB, afterC, afterBlank, hA, hB, hC, hblank, hP⟩
  · rintro ⟨afterA, afterB, afterC, afterBlank, hA, hB, hC, hblank, hP⟩
    simp only [parseText, hA, hB, hC, hblank, hP, Except.map]

/-! ### The texts that parse -/

theorem splitText_eq_iff {sep : Char} {text : Text} {ps : List Text} (hne : ps ≠ []) (h : ∀ p ∈ ps, sep ∉ p) :
    splitText sep text = ps ↔ text = joinText sep ps := by
  constructor
  · rintro rfl
    exact (joinText_splitText sep text).symm
  · rintro rfl
    exact splitText_joinText hne h

theorem joinText_concat_nil {sep : Char} {ps : List Text} (h : ps ≠ []) :
    joinText sep (ps ++ [[]]) = joinText sep ps ++ [sep] := by
  induction ps with
  | nil => exact absurd rfl h
  | cons p ps ih =>
    cases ps with
    | nil => rfl
    | cons q qs =>
      have hq : joinText sep (q :: (qs ++ [[]])) = joinText sep (q :: qs) ++ [sep] := ih (List.cons_ne_nil _ _)
      simp only [List.cons_append, joinText, hq, List.append_assoc]

/-- The lines of the template, from the digits of its numbers (30_encoding.md R54). -/
def templateLines (da db dc : List (Fin 10)) (dps : List (List (Fin 10))) : List Text :=
  [registerLine .a (numberText da), registerLine .b (numberText db), registerLine .c (numberText dc), [],
    programKeyword ++ joinText ',' (dps.map numberText)]

theorem programText_eq_joinText (da db dc : List (Fin 10)) (dps : List (List (Fin 10))) :
    programText (numberText da) (numberText db) (numberText dc) (dps.map numberText) =
      joinText lineEnd (templateLines da db dc dps) := rfl

theorem templateLines_ne_nil (da db dc : List (Fin 10)) (dps : List (List (Fin 10))) :
    templateLines da db dc dps ≠ [] := List.cons_ne_nil _ _

theorem lineEnd_not_mem_templateLines (da db dc : List (Fin 10)) (dps : List (List (Fin 10))) :
    ∀ line ∈ templateLines da db dc dps, lineEnd ∉ line := by
  have hnum := not_mem_numberText (ch := lineEnd) (by decide)
  have hlist : lineEnd ∉ joinText ',' (dps.map numberText) :=
    not_mem_joinText (by decide) (by simp [hnum])
  have hkey : lineEnd ∉ programKeyword := by decide
  simp [templateLines, lineEnd_not_mem_registerLine, hlist, hkey]

/-- A text is cut into the template's lines exactly when it is the template. -/
theorem splitText_eq_templateLines_iff {text : Text} {da db dc : List (Fin 10)}
    {dps : List (List (Fin 10))} :
    splitText lineEnd text = templateLines da db dc dps ↔
      text = programText (numberText da) (numberText db) (numberText dc) (dps.map numberText) := by
  rw [programText_eq_joinText]
  exact splitText_eq_iff (templateLines_ne_nil _ _ _ _) (lineEnd_not_mem_templateLines _ _ _ _)

/-- With the optional last LF, one empty piece more. -/
theorem splitText_eq_templateLines_concat_iff {text : Text} {da db dc : List (Fin 10)}
    {dps : List (List (Fin 10))} :
    splitText lineEnd text = templateLines da db dc dps ++ [[]] ↔
      text = programText (numberText da) (numberText db) (numberText dc) (dps.map numberText) ++ [lineEnd] := by
  rw [programText_eq_joinText, ← joinText_concat_nil (templateLines_ne_nil _ _ _ _)]
  refine splitText_eq_iff (List.append_ne_nil_of_left_ne_nil (templateLines_ne_nil _ _ _ _) _) fun line hl => ?_
  rcases List.mem_append.1 hl with hl | hl
  · exact lineEnd_not_mem_templateLines _ _ _ _ line hl
  · rw [List.mem_singleton.1 hl]
    exact List.not_mem_nil

/-- What the digits of the template stand for. -/
def templateArgs (da db dc : List (Fin 10)) (dps : List (List (Fin 10))) : LoadArgs :=
  { program := dps.map numberValue, a0 := numberValue da, b0 := numberValue db, c0 := numberValue dc }

/-- A text that parses is cut into the template's lines, with at most one empty piece after them. -/
theorem lines_of_parseText {text : Text} {x : LoadArgs} (h : parseText text = .ok x) :
    ∃ da db dc dps, da ≠ [] ∧ db ≠ [] ∧ dc ≠ [] ∧ dps ≠ [] ∧ (∀ d ∈ dps, d ≠ []) ∧
      (splitText lineEnd text = templateLines da db dc dps ∨
        splitText lineEnd text = templateLines da db dc dps ++ [[]]) ∧ x = templateArgs da db dc dps := by
  obtain ⟨afterA, afterB, afterC, afterBlank, hA, hB, hC, hblank, hP⟩ := parseText_eq_ok_iff.1 h
  obtain ⟨da, hda, hA, ha0⟩ := takeRegister_eq_ok_iff.1 hA
  obtain ⟨db, hdb, rfl, hb0⟩ := takeRegister_eq_ok_iff.1 hB
  obtain ⟨dc, hdc, rfl, hc0⟩ := takeRegister_eq_ok_iff.1 hC
  obtain ⟨rfl, -⟩ := takeBlank_eq_ok_iff.1 hblank
  obtain ⟨values, rest, rfl, hrest, hnums⟩ := takeProgram_eq_ok_iff.1 hP
  obtain ⟨dps, ⟨hdps, hne, rfl⟩, hprogram⟩ := readNumbers_splitText_iff.1 hnums
  refine ⟨da, db, dc, dps, hda, hdb, hdc, hdps, hne, ?_, ?_⟩
  · rcases hrest with rfl | rfl
    · exact .inl hA
    · exact .inr hA
  · rw [templateArgs, ← ha0, ← hb0, ← hc0, ← hprogram]

theorem parseText_of_lines {text : Text} {da db dc : List (Fin 10)} {dps : List (List (Fin 10))}
    (hda : da ≠ []) (hdb : db ≠ []) (hdc : dc ≠ []) (hdps : dps ≠ []) (hne : ∀ d ∈ dps, d ≠ [])
    {rest : List Text} (hrest : rest = [] ∨ rest = [[]])
    (h : splitText lineEnd text = templateLines da db dc dps ++ rest) :
    parseText text = .ok (templateArgs da db dc dps) := by
  have hnums := readNumbers_splitText_iff.2 ⟨dps, ⟨hdps, hne, rfl⟩, rfl⟩
  refine parseText_eq_ok_iff.2 ⟨_, _, _, _, ?_, takeRegister_registerLine hdb _,
    takeRegister_registerLine hdc _, takeBlank_of_ne_nil (List.cons_ne_nil _ _),
    takeProgram_eq_ok_iff.2 ⟨_, rest, rfl, hrest, hnums⟩⟩
  rw [h]
  exact takeRegister_registerLine hda _

/-- Settles O47: the texts that parse are those cut into the template's lines. -/
theorem exactlyTheTemplateTextsParse : Obligations.ExactlyTheTemplateTextsParse := by
  intro text x
  constructor
  · intro h
    obtain ⟨da, db, dc, dps, hda, hdb, hdc, hdps, hne, hlines, hx⟩ := lines_of_parseText h
    exact ⟨da, db, dc, dps, hda, hdb, hdc, hdps, hne,
      hlines.imp splitText_eq_templateLines_iff.1 splitText_eq_templateLines_concat_iff.1, hx⟩
  · rintro ⟨da, db, dc, dps, hda, hdb, hdc, hdps, hne, htext | htext, rfl⟩
    · exact parseText_of_lines hda hdb hdc hdps hne (.inl rfl)
        ((splitText_eq_templateLines_iff.2 htext).trans (List.append_nil _).symm)
    · exact parseText_of_lines hda hdb hdc hdps hne (.inr rfl)
        (splitText_eq_templateLines_concat_iff.2 htext)

/-! ### Malformed register lines -/

theorem breakText_of_not_mem {sep : Char} {t : Text} (h : sep ∉ t) : breakText sep t = none := by
  induction t with
  | nil => rfl
  | cons x t ih =>
    have hx : x ≠ sep := fun he => h (he ▸ List.mem_cons_self)
    rw [breakText, if_neg hx, ih fun hm => h (List.mem_cons_of_mem _ hm)]
    rfl

theorem readRegisterLine_of_no_colon (r : Reg) {label : Text} (h : ':' ∉ label) :
    readRegisterLine r (registerKeyword ++ label) = .error (.missingRegisterLine r) := by
  simp only [readRegisterLine, dropStart_append, breakText_of_not_mem h]

theorem readRegisterLine_of_wrong_label {r : Reg} {label : Text} (value : Text) (h : ':' ∉ label)
    (hl : label ≠ [regLabel r]) :
    readRegisterLine r (registerKeyword ++ label ++ ':' :: value) = .error (.wrongRegisterLabel r) := by
  simp only [readRegisterLine, List.append_assoc, dropStart_append, breakText_append h, if_neg hl]

/-- Every error of a line with the register's own label is `NonNumericValue`. -/
theorem readRegisterLine_error {r : Reg} {value : Text} {e : LoadError}
    (h : readRegisterLine r (registerKeyword ++ regLabel r :: ':' :: value) = .error e) :
    e = .nonNumericValue := by
  have hcolon : ':' ∉ [regLabel r] := by cases r <;> decide
  have hbreak : breakText ':' (regLabel r :: ':' :: value) = some ([regLabel r], value) :=
    breakText_append hcolon value
  simp only [readRegisterLine, dropStart_append, hbreak, if_true] at h
  split at h
  · exact readNumber_error h
  · cases h
    rfl

theorem readRegisterLine_of_bad_value {r : Reg} {value : Text}
    (h : ∀ ds, ds ≠ [] → value ≠ ' ' :: numberText ds) :
    readRegisterLine r (registerKeyword ++ regLabel r :: ':' :: value) = .error .nonNumericValue := by
  cases hr : readRegisterLine r (registerKeyword ++ regLabel r :: ':' :: value) with
  | error e => rw [readRegisterLine_error hr]
  | ok n =>
    obtain ⟨ds, hne, hline, -⟩ := readRegisterLine_eq_ok hr
    exact absurd (by simpa [registerLine] using hline) (h ds hne)

theorem splitText_firstLine {line tail rest : Text} (h : lineEnd ∉ line)
    (ht : tail = [] ∨ tail = lineEnd :: rest) : ∃ lines, splitText lineEnd (line ++ tail) = line :: lines := by
  rcases ht with rfl | rfl
  · exact ⟨[], by rw [List.append_nil, splitText_of_not_mem h]⟩
  · exact ⟨_, splitText_append h rest⟩

section
variable {da db dc : List (Fin 10)}

/-- A malformed register line after good ones gives its own error, whatever follows it. -/
theorem parseText_malformedLine (ha : da ≠ []) (hb : db ≠ []) {r : Reg} {line tail rest : Text} {e : LoadError}
    (ht : tail = [] ∨ tail = lineEnd :: rest) (hline : lineEnd ∉ line) (h : readRegisterLine r line = .error e) :
    parseText (linesBefore (numberText da) (numberText db) r ++ line ++ tail) = .error e := by
  obtain ⟨lines, hsplit⟩ := splitText_firstLine hline ht
  rw [List.append_assoc]
  exact parseText_badRegisterLine ha hb (by rw [hsplit, takeRegister_error h])

/-- A text whose next line lacks the keyword of a register line. -/
theorem parseText_no_registerKeyword (ha : da ≠ []) (hb : db ≠ []) {r : Reg} {rest : Text}
    (h : dropStart registerKeyword rest = none) :
    parseText (linesBefore (numberText da) (numberText db) r ++ rest) = .error (.missingRegisterLine r) := by
  obtain ⟨line, lines, hsplit, hdrop⟩ := dropStart_firstLine h
  exact parseText_badRegisterLine ha hb (by rw [hsplit, takeRegister_error (by rw [readRegisterLine, hdrop])])

/-! ### Texts that end too early -/

theorem parseText_ends_after_a (ha : da ≠ []) :
    parseText (registerLine .a (numberText da)) = .error (.missingRegisterLine .b) := by
  rw [parseText, splitText_of_not_mem (lineEnd_not_mem_registerLine _ _), takeRegister_registerLine ha]
  rfl

theorem parseText_ends_after_b (ha : da ≠ []) (hb : db ≠ []) :
    parseText (linesBefore (numberText da) (numberText db) .b ++ registerLine .b (numberText db)) =
      .error (.missingRegisterLine .c) := by
  simp only [parseText, linesBefore, List.append_assoc, List.cons_append, List.nil_append,
    splitText_append (lineEnd_not_mem_registerLine _ _), splitText_of_not_mem (lineEnd_not_mem_registerLine _ _),
    takeRegister_registerLine ha, takeRegister_registerLine hb]
  rfl

theorem parseText_ends_after_c (ha : da ≠ []) (hb : db ≠ []) (hc : dc ≠ []) :
    parseText (registerLines (numberText da) (numberText db) (numberText dc)) = .error .missingBlankLine := by
  simp only [parseText, registerLines, linesBefore, List.append_assoc, List.cons_append, List.nil_append,
    splitText_append (lineEnd_not_mem_registerLine _ _), splitText_of_not_mem (lineEnd_not_mem_registerLine _ _),
    takeRegister_registerLine ha, takeRegister_registerLine hb, takeRegister_registerLine hc]
  rfl

/-! ### The blank line and the program line -/

theorem takeBlank_splitText_of_head_ne {rest : Text} (h : rest.head? ≠ some lineEnd) :
    takeBlank (splitText lineEnd rest) = .error .missingBlankLine := by
  cases rest with
  | nil => rfl
  | cons x xs =>
    have hx : x ≠ lineEnd := fun he => h (congrArg some he)
    rw [splitText, if_neg hx]
    split <;> rfl

/-- After good register lines and the blank line, the program line decides. -/
theorem parseText_badProgram (ha : da ≠ []) (hb : db ≠ []) (hc : dc ≠ []) {rest : Text} {e : LoadError}
    (h : takeProgram (splitText lineEnd rest) = .error e) :
    parseText (registerLines (numberText da) (numberText db) (numberText dc) ++ lineEnd :: lineEnd :: rest) =
      .error e := by
  have hsplit : splitText lineEnd (lineEnd :: rest) = [] :: splitText lineEnd rest :=
    splitText_append (piece := []) List.not_mem_nil rest
  rw [parseText_registerLines ha hb hc, hsplit, takeBlank_of_ne_nil (splitText_ne_nil _ _)]
  simp only [h, Except.map]

theorem takeProgram_of_no_keyword {rest : Text} (h : dropStart programKeyword rest = none) :
    takeProgram (splitText lineEnd rest) = .error .missingProgramLine := by
  obtain ⟨line, lines, hsplit, hdrop⟩ := dropStart_firstLine h
  rw [hsplit, takeProgram, hdrop]

end

/-- Settles O48: the register lines before a malformed one are read, and the first reader that fails names
its expectation. -/
theorem malformedTextsNameTheExpectation : Obligations.MalformedTextsNameTheExpectation := by
  intro da db dc rest tail ha hb hc ht
  have hkey : lineEnd ∉ registerKeyword := by decide
  have hcolonLf : lineEnd ≠ ':' := by decide
  refine ⟨fun r => ⟨parseText_no_registerKeyword ha hb, fun label hcolon hlf => ?_,
    fun label value hcolon hlf hlabel hvalue => ?_, fun value hlf hvalue => ?_⟩,
    parseText_ends_after_a ha, parseText_ends_after_b ha hb, parseText_ends_after_c ha hb hc,
    fun hhead => ?_, fun hprog => ?_⟩
  · exact parseText_malformedLine ha hb ht (by simp [hkey, hlf]) (readRegisterLine_of_no_colon r hcolon)
  · exact parseText_malformedLine ha hb ht (by simp [hkey, hlf, hvalue, hcolonLf])
      (readRegisterLine_of_wrong_label value hcolon hlabel)
  · have hr : lineEnd ≠ regLabel r := by cases r <;> decide
    exact parseText_malformedLine ha hb ht (by simp [hkey, hlf, hr, hcolonLf])
      (readRegisterLine_of_bad_value hvalue)
  · rw [parseText_registerLines ha hb hc, takeBlank_splitText_of_head_ne hhead]
  · exact parseText_badProgram ha hb hc (takeProgram_of_no_keyword hprog)

/-! ### Malformed program lists -/

theorem readNumbers_of_not_programList {values : Text} (h : ∀ dps, ¬ IsProgramList values dps) :
    readNumbers (splitText ',' values) = .error .nonNumericValue := by
  cases hr : readNumbers (splitText ',' values) with
  | error e => rw [readNumbers_error hr]
  | ok ps =>
    obtain ⟨dps, hdps, -⟩ := readNumbers_splitText_iff.1 hr
    exact absurd hdps (h dps)

theorem takeProgram_of_bad_list {values : Text} (h : ∀ dps, ¬ IsProgramList values dps) (rest : List Text) :
    takeProgram ((programKeyword ++ values) :: rest) = .error .nonNumericValue := by
  rw [takeProgram_programLine, readNumbers_of_not_programList h, ite_self]

theorem takeProgram_of_more {more : Text} (values : Text) (h : more ≠ []) :
    takeProgram ((programKeyword ++ values) :: splitText lineEnd more) = .error .nonNumericValue := by
  rw [takeProgram_programLine, if_neg]
  rintro (hnil | hblank)
  · exact splitText_ne_nil _ _ hnil
  · exact h (by rw [← joinText_splitText lineEnd more, hblank]; rfl)

/-- Settles O52: after the keyword the list and what follows its line are all that is left to read. -/
theorem malformedProgramListsAreNonNumeric : Obligations.MalformedProgramListsAreNonNumeric := by
  intro da db dc values ha hb hc hvalues
  have hline : lineEnd ∉ programKeyword ++ values := by
    have hkey : lineEnd ∉ programKeyword := by decide
    simp [hkey, hvalues]
  refine ⟨fun more hmore => ?_, fun h => ?_⟩
  · rw [List.append_assoc, List.cons_append, List.cons_append]
    exact parseText_badProgram ha hb hc (by rw [splitText_append hline, takeProgram_of_more values hmore])
  · have hbad : ∀ dps, ¬ IsProgramList values dps := fun dps ⟨hdps, hne, hjoin⟩ => h dps hdps hne hjoin
    constructor
    · exact parseText_badProgram ha hb hc (by rw [splitText_of_not_mem hline, takeProgram_of_bad_list hbad])
    · rw [List.append_assoc, List.cons_append, List.cons_append]
      exact parseText_badProgram ha hb hc (by rw [splitText_append hline, takeProgram_of_bad_list hbad])

end Sys2Proof.Machine
end

section
/-! The execution engine (40_execution_engine.md R60 to R68): every step has a next state, what it commits,
and where a run of steps ends. -/

namespace Sys2Proof.Machine

/-! ### One step (R60, R61, R64) -/

theorem step_total (s : State) : ∃ t, step s = .next t := by
  rcases step_cases s with ⟨-, e⟩ | ⟨-, -, e⟩ | ⟨-, -, -, e⟩ | ⟨-, -, i, -, -, e⟩
  · exact ⟨s, e⟩
  · exact ⟨haltStep s, e⟩
  · exact ⟨raiseFault s .invalidOpcode, e⟩
  · rw [e]
    exact exec_total i s

theorem steps_total (k : Nat) (s : State) : ∃ t, steps k s = .next t := by
  induction k generalizing s with
  | zero => exact ⟨s, steps_zero s⟩
  | succ k ih =>
    obtain ⟨u, hu⟩ := step_total s
    obtain ⟨t, ht⟩ := ih u
    exact ⟨t, steps_succ_eq_next.2 ⟨u, hu, ht⟩⟩

/-- Settles O8: each of the cases of a step has a next state, so a row of steps has one by induction. -/
theorem everyStepHasANextState : Obligations.EveryStepHasANextState :=
  ⟨step_total, steps_total⟩

/-- Settles O9: two bytes that decode are the instruction's own encoding. -/
theorem aStepRunsTheDecodedInstruction : Obligations.AStepRunsTheDecodedInstruction := by
  intro s opcode operand i rest hr h1 h2 hdec
  have hbytes : opcode :: operand :: [] = opcodeByte i :: i.operand :: rest := decode_eq_ok_iff.1 hdec
  cases hbytes
  exact step_of_pair_encode hr h1 h2

/-- Settles O10: without a pair the step is the halting one, and with a pair it ends Running or Faulted. -/
theorem haltsExactlyWhenNoPairIsAvailable : Obligations.HaltsExactlyWhenNoPairIsAvailable := by
  intro s hr
  refine ⟨step_of_unavailable hr, fun ha => ?_⟩
  obtain ⟨htransitions, -⟩ := statusTransitionsAndCodes
  obtain ⟨t, ht⟩ := step_total s
  obtain ⟨havailable, -⟩ := htransitions s t ht
  refine ⟨t, ht, fun hhalted => ?_⟩
  rcases havailable hr ha with h | h <;> rw [hhalted] at h <;> cases h

/-- Settles O12: the stopped state is its own next state, and a trace that stays as it is shows no value. -/
theorem stoppedMachinesStayAsTheyAre : Obligations.StoppedMachinesStayAsTheyAre := by
  intro s hs
  have hnone : appended s s = none := appended_of_trace (em := none) rfl
  exact ⟨step_of_stopped hs, by rw [portsAfter, hnone]; rfl⟩

/-! ### What a committed step writes (R62, R63) -/

/-- An instruction has one write select, so its commit leaves two of the three registers as they are. -/
theorem commit_leaves_two_registers {i : Instr} {s : State} {h : HandlerResult}
    (hh : handlerResult i s = .ok h) :
    ((commit s h).b = s.b ∧ (commit s h).c = s.c) ∨ ((commit s h).a = s.a ∧ (commit s h).c = s.c) ∨
      ((commit s h).a = s.a ∧ (commit s h).b = s.b) := by
  have keep : ∀ r, regWrites i ≠ some r → readReg (commit s h) r = readReg s r := fun _ =>
    readReg_commit_of_not_written hh
  rcases hw : regWrites i with _ | _ | _ | _ <;> rw [hw] at keep
  · exact .inl ⟨keep .b (by simp), keep .c (by simp)⟩
  · exact .inl ⟨keep .b (by simp), keep .c (by simp)⟩
  · exact .inr (.inl ⟨keep .a (by simp), keep .c (by simp)⟩)
  · exact .inr (.inr ⟨keep .a (by simp), keep .b (by simp)⟩)

theorem handlerResult_nextIp_of_ne_jnz {i : Instr} {s : State} {h : HandlerResult}
    (hh : handlerResult i s = .ok h) (hi : opcodeByte i ≠ 3) : h.nextIp = s.ip + 2 := by
  rcases handlerResult_nextIp hh with hip | ⟨lit, rfl, -⟩
  · exact hip
  · exact absurd rfl hi

/-- What a commit appends to the Output Trace: one value for OUT, none otherwise (44_output.md R81). -/
theorem commit_trace_by_opcode {i : Instr} {s : State} {h : HandlerResult} (hh : handlerResult i s = .ok h) :
    (opcodeByte i ≠ 5 → (commit s h).trace = s.trace) ∧
      (opcodeByte i = 5 → ∃ v, (commit s h).trace = s.trace ++ [v]) := by
  have hem : h.em.isSome = true ↔ opcodeByte i = 5 := (handlerResult_emits hh).trans opcodeByte_eq_out.symm
  rw [commit_trace, Ne, ← hem]
  cases h.em with
  | none => exact ⟨fun _ => rfl, fun hsome => by cases hsome⟩
  | some v => exact ⟨fun hnone => absurd rfl hnone, fun _ => ⟨v, rfl⟩⟩

/-- Settles O17: a step that ends Running has committed the handler result of the opcode at `ip`. -/
theorem aCommittedStepWritesAtMostOnce : Obligations.ACommittedStepWritesAtMostOnce := by
  intro s t opcode _ h ht hop
  obtain ⟨-, ha, i, r, ho, -, hh, rfl⟩ := (step_eq_next_iff.1 h).committed_of_running ht
  rw [memRead_of_lt (by omega), ho] at hop
  cases hop
  exact ⟨commit_leaves_two_registers hh, handlerResult_nextIp_of_ne_jnz hh, commit_trace_by_opcode hh⟩

/-! ### A run to completion (R65, R66) -/

/-- Settles O20, by induction on the limit: a Running state hands the rest of the limit to its next state. -/
theorem aRunEndsAtTheFirstStoppedState : Obligations.ARunEndsAtTheFirstStoppedState := by
  intro limit
  induction limit with
  | zero =>
    intro s
    by_cases hs : s.status = .running
    · exact .inr ⟨s, by rw [runToCompletion_zero, if_pos hs], hs, steps_zero s⟩
    · exact .inl ⟨s, runToCompletion_of_stopped hs 0, hs, 0, le_rfl, steps_zero s, by simp⟩
  | succ limit ih =>
    intro s
    by_cases hs : s.status = .running
    · obtain ⟨t, ht⟩ := step_total s
      have later : ∀ {j w}, steps j t = .next w → steps (j + 1) s = .next w := fun h =>
        steps_succ_eq_next.2 ⟨t, ht, h⟩
      rw [runToCompletion_of_running hs ht]
      rcases ih t with ⟨u, hrun, hu, k, hk, hsteps, hbefore⟩ | ⟨u, hrun, hu, hsteps⟩
      · refine .inl ⟨u, hrun, hu, k + 1, Nat.succ_le_succ hk, later hsteps, fun j hj => ?_⟩
        cases j with
        | zero => exact ⟨s, steps_zero s, hs⟩
        | succ j =>
          obtain ⟨w, hw, hwr⟩ := hbefore j (by omega)
          exact ⟨w, later hw, hwr⟩
      · exact .inr ⟨u, hrun, hu, later hsteps⟩
    · exact .inl ⟨s, runToCompletion_of_stopped hs _, hs, 0, Nat.zero_le _, steps_zero s, by simp⟩

/-! ### The Output Trace along a run (R67) -/

theorem steps_add {m n : Nat} {s u : State} (h : steps m s = .next u) : steps (m + n) s = steps n u := by
  induction m generalizing s with
  | zero =>
    cases h
    rw [Nat.zero_add]
  | succ m ih =>
    obtain ⟨t, ht, h⟩ := steps_succ_eq_next.1 h
    rw [Nat.succ_add, steps_succ, ht]
    exact ih h

theorem steps_of_stopped {s : State} (hs : s.status ≠ .running) (k : Nat) : steps k s = .next s := by
  induction k with
  | zero => exact steps_zero s
  | succ k ih => exact steps_succ_eq_next.2 ⟨s, step_of_stopped hs, ih⟩

/-- The end of a run is a stopped state, and some number of steps reaches it. -/
theorem steps_of_run_ended {limit : Nat} {s u : State} (h : runToCompletion limit s = .next (.ended u)) :
    u.status ≠ .running ∧ ∃ n, steps n s = .next u := by
  rcases aRunEndsAtTheFirstStoppedState limit s with ⟨v, hv, hs, n, -, hn, -⟩ | ⟨v, hv, -, -⟩ <;> rw [hv] at h
  · cases h
    exact ⟨hs, n, hn⟩
  · cases h

/-- A stopped state that a run reaches is reached from every state of that run: the two rows of steps,
exchanged, end in the same state. -/
theorem stopped_reached_from_every_point {s t u : State} {n k : Nat} (hn : steps n s = .next u)
    (hu : u.status ≠ .running) (hk : steps k s = .next t) : steps n t = .next u := by
  calc steps n t = steps (k + n) s := (steps_add hk).symm
    _ = steps (n + k) s := by rw [Nat.add_comm]
    _ = steps k u := steps_add hn
    _ = .next u := steps_of_stopped hu k

theorem StepEnd.trace_prefix {s t : State} (h : StepEnd s t) : s.trace <+: t.trace := by
  obtain ⟨em, ht, -⟩ := h.trace_eq
  rw [ht]
  cases em with
  | none => exact List.prefix_rfl
  | some v => exact List.prefix_append _ _

theorem steps_trace_prefix {k : Nat} {s t : State} (h : steps k s = .next t) : s.trace <+: t.trace :=
  steps_keep (P := fun u => s.trace <+: u.trace)
    (fun _ _ hu hstep => hu.trans (step_eq_next_iff.1 hstep).trace_prefix) List.prefix_rfl h

/-- Settles O19: every step appends to the trace, and the end of a run lies ahead of each of its states. -/
theorem theTraceSoFarIsAPrefixOfTheFullTrace : Obligations.TheTraceSoFarIsAPrefixOfTheFullTrace := by
  refine ⟨fun _ _ _ => steps_trace_prefix, fun limit s u k t hrun hk => ?_⟩
  obtain ⟨hu, n, hn⟩ := steps_of_run_ended hrun
  exact steps_trace_prefix (stopped_reached_from_every_point hn hu hk)

end Sys2Proof.Machine
end

section
/-! The divisions ADV, BDV and CDV (41_division.md R69 to R73): one law with three destinations, and what ADV
applied again and again does to A. -/

namespace Sys2Proof.Machine

/-! ### The law (R69) -/

/-- Settles O25: the quotient as a word is the quotient of the naturals. -/
theorem shiftIsExactFloorDivision : Obligations.ShiftIsExactFloorDivision := by
  refine fun policy x sh => ⟨fun h => ⟨_, shr_ok h, ?_⟩, ?_⟩
  · rw [quotient_toNat]
    exact ⟨rfl, Nat.div_le_self _ _, two_pow_ge_of_word⟩
  · rintro h64 rfl
    exact shr_of_ge h64

/-! ### One instruction (R71 to R73) -/

/-- A division that writes its quotient to `r`: what ADV, BDV and CDV have in common. -/
def execDivision (r : Reg) (k : Byte) (s : State) : Host.Outcome State Fault Refusal :=
  finish s ((divideA s k).map (writeResult s r))

theorem exec_adv (k : Byte) (s : State) : exec (.adv k) s = execDivision .a k s := rfl

theorem exec_bdv (k : Byte) (s : State) : exec (.bdv k) s = execDivision .b k s := rfl

theorem exec_cdv (k : Byte) (s : State) : exec (.cdv k) s = execDivision .c k s := rfl

theorem execDivision_of_quotient {s : State} {k : Byte} {v : Word} (r : Reg) (hc : combo s k = .ok v)
    (hv : v.toNat < 64 ∨ s.policies.largeShift = .zero) :
    execDivision r k s = .next
      { writePort s (some (r, BitVec.ofNat 64 (s.a.toNat / 2 ^ v.toNat))) with ip := s.ip + 2 } := by
  rw [execDivision, divideA_of_combo hc, shr_ok hv]
  cases r <;> rfl

theorem execDivision_of_largeShift {s : State} {k : Byte} {v : Word} (r : Reg) (hc : combo s k = .ok v)
    (hv : 64 ≤ v.toNat) (hp : s.policies.largeShift = .fault) :
    execDivision r k s = .next (raiseFault s .shiftOverflow) := by
  rw [execDivision, divideA_of_combo hc, shr_of_ge hv, hp]
  rfl

theorem execDivision_of_invalid {s : State} {k : Byte} (r : Reg) (h : 7 ≤ k.toNat) :
    execDivision r k s = .next (raiseFault s .invalidCombo) := by
  rw [execDivision, divideA_of_invalid h]
  rfl

/-- A division by its operand byte: the quotient or `ShiftOverflow` where it resolves, else `InvalidCombo`. -/
theorem execDivision_by_operand (r : Reg) (k : Byte) (s : State) :
    (k.toNat ≤ 6 → ∃ v, combo s k = .ok v ∧
      (v.toNat < 64 ∨ s.policies.largeShift = .zero → execDivision r k s = .next
        { writePort s (some (r, BitVec.ofNat 64 (s.a.toNat / 2 ^ v.toNat))) with ip := s.ip + 2 }) ∧
      (64 ≤ v.toNat → s.policies.largeShift = .fault →
        execDivision r k s = .next (raiseFault s .shiftOverflow))) ∧
    (7 ≤ k.toNat → execDivision r k s = .next (raiseFault s .invalidCombo)) := by
  refine ⟨fun h6 => ?_, execDivision_of_invalid r⟩
  obtain ⟨v, hc⟩ := combo_of_valid (s := s) h6
  exact ⟨v, hc, execDivision_of_quotient r hc, execDivision_of_largeShift r hc⟩

theorem regWrites_eq_a {i : Instr} : regWrites i = some .a ↔ ∃ k, i = .adv k := by
  cases i <;> simp [regWrites]

theorem regWrites_eq_c {i : Instr} : regWrites i = some .c ↔ ∃ k, i = .cdv k := by
  cases i <;> simp [regWrites]

theorem regWrites_of_readReg_ne {i : Instr} {s t : State} {r : Reg} (h : exec i s = .next t)
    (hr : readReg t r ≠ readReg s r) : regWrites i = some r :=
  not_imp_comm.1 (readReg_exec_of_not_written h) hr

/-- Settles O26: the division into A, and A is in the write select of ADV alone. -/
theorem advDividesAIntoA : Obligations.AdvDividesAIntoA := by
  intro s k
  have hword : tableWord (.adv k) = k.toNat := by simp [tableWord, opcodeByte, Instr.operand]
  obtain ⟨hlegal, hillegal⟩ := execDivision_by_operand .a k s
  rw [exec_adv]
  exact ⟨decode_encode_append (.adv k) [], hword, hlegal, hillegal, fun i t h ha =>
    regWrites_eq_a.1 (regWrites_of_readReg_ne (r := .a) h ha)⟩

/-- Settles O27: the division into B. -/
theorem bdvDividesAIntoB : Obligations.BdvDividesAIntoB := by
  intro s k
  have hword : tableWord (.bdv k) = 0x0600 + k.toNat := by simp [tableWord, opcodeByte, Instr.operand]
  obtain ⟨hlegal, hillegal⟩ := execDivision_by_operand .b k s
  rw [exec_bdv]
  exact ⟨decode_encode_append (.bdv k) [], hword, hlegal, hillegal⟩

/-- Settles O28: the division into C, and C is in the write select of CDV alone. -/
theorem cdvDividesAIntoC : Obligations.CdvDividesAIntoC := by
  intro s k
  have hword : tableWord (.cdv k) = 0x0700 + k.toNat := by simp [tableWord, opcodeByte, Instr.operand]
  obtain ⟨hlegal, hillegal⟩ := execDivision_by_operand .c k s
  rw [exec_cdv]
  exact ⟨decode_encode_append (.cdv k) [], hword, hlegal, hillegal, fun i t h hc =>
    regWrites_eq_c.1 (regWrites_of_readReg_ne (r := .c) h hc)⟩

/-! ### Repeated ADV (R70) -/

theorem exec_adv_quotient {s : State} {k : Byte} {v : Word} (hc : combo s k = .ok v)
    (hv : v.toNat < 64 ∨ s.policies.largeShift = .zero) :
    exec (.adv k) s = .next { s with a := BitVec.ofNat 64 (s.a.toNat / 2 ^ v.toNat), ip := s.ip + 2 } :=
  (exec_adv k s).trans (execDivision_of_quotient .a hc hv)

theorem combo_eq_readReg {s : State} {k : Byte} {v : Word} {r : Reg} (hr : r ∈ comboReads k)
    (hc : combo s k = .ok v) : v = readReg s r := by
  rw [combo, if_pos ((comboValid_iff k).2 (combo_ok hc)), comboValue, Option.mem_toList.1 hr] at hc
  exact (Except.ok.inj hc).symm

/-- Where the count is not A itself, it stays what it is, and `n` ADVs in a row divide by it `n` times. -/
theorem execTimes_adv {k : Byte} {v : Word} (hr : .a ∉ comboReads k) (n : Nat) {s : State}
    (hc : combo s k = .ok v) (hv : v.toNat < 64 ∨ s.policies.largeShift = .zero) :
    ∃ t, execTimes (.adv k) n s = .next t ∧ t.a.toNat = s.a.toNat / 2 ^ (v.toNat * n) := by
  induction n generalizing s with
  | zero => exact ⟨s, rfl, (Nat.div_one _).symm⟩
  | succ n ih =>
    have hsame : combo { s with a := BitVec.ofNat 64 (s.a.toNat / 2 ^ v.toNat), ip := s.ip + 2 } k =
        combo s k := combo_writePort (s := { s with ip := s.ip + 2 }) _ hr
    obtain ⟨t, ht, hta⟩ := ih (hsame.trans hc) hv
    refine ⟨t, by rw [execTimes, exec_adv_quotient hc hv]; exact ht, ?_⟩
    rw [hta, quotient_toNat, Nat.div_div_eq_div_mul, ← pow_add, Nat.mul_succ, Nat.add_comm]

/-- Settles O40: a count that is A itself brings A to 0 at once, since `a < 2 ^ a`; any other is the same at
every application, and 64 of them divide by `2 ^ 64` at least. -/
theorem repeatedAdvReachesZero : Obligations.RepeatedAdvReachesZero := by
  intro s k v hc hpos hv
  have hexec := exec_adv_quotient hc hv
  refine ⟨fun ha => ⟨_, hexec, ?_⟩, ?_⟩
  · rw [quotient_toNat]
    exact Nat.div_lt_self ha (Nat.one_lt_two_pow hpos.ne')
  · by_cases hr : .a ∈ comboReads k
    · obtain rfl : v = s.a := combo_eq_readReg hr hc
      refine ⟨1, by decide, _, by rw [execTimes, hexec]; rfl, ?_⟩
      exact congrArg (BitVec.ofNat 64) (Nat.div_eq_of_lt Nat.lt_two_pow_self)
    · obtain ⟨t, ht, hta⟩ := execTimes_adv hr 64 hc hv
      rw [two_pow_ge_of_word (by omega)] at hta
      exact ⟨64, le_rfl, t, ht, BitVec.eq_of_toNat_eq hta⟩

end Sys2Proof.Machine
end

section
/-! The bitwise instructions BXL, BST and BXC (42_bitwise.md R74 to R76): the three writes of B, in the
naturals the spec writes them in. -/

namespace Sys2Proof.Machine

theorem commit_writeResult_b (s : State) (v : Word) :
    commit s (writeResult s .b v) = { s with b := v, ip := s.ip + 2 } := rfl

theorem xor_eq_ofNat (x y : Word) : x ^^^ y = BitVec.ofNat 64 (x.toNat ^^^ y.toNat) := by
  rw [← BitVec.toNat_xor, BitVec.ofNat_toNat, BitVec.setWidth_eq]

theorem zext3_low3 (v : Word) : zext3 (low3 v) = BitVec.ofNat 64 (v.toNat % 8) := by
  rw [← low3_toNat, BitVec.ofNat_toNat, zext3]

/-! ### One instruction (R74 to R76) -/

theorem exec_bxl (lit : Byte) (s : State) : exec (.bxl lit) s = .next
    { s with b := BitVec.ofNat 64 (s.b.toNat ^^^ lit.toNat), ip := s.ip + 2 } := by
  rw [← literal_toNat lit, ← xor_eq_ofNat, ← commit_writeResult_b]
  rfl

theorem exec_bst_of_combo {s : State} {k : Byte} {v : Word} (hc : combo s k = .ok v) :
    exec (.bst k) s = .next { s with b := BitVec.ofNat 64 (v.toNat % 8), ip := s.ip + 2 } := by
  have hh : handlerResult (.bst k) s = .ok (writeResult s .b (zext3 (low3 v))) := congrArg (Except.map _) hc
  rw [exec_eq_finish, hh, finish_ok, zext3_low3, commit_writeResult_b]

theorem exec_bst_of_invalid {s : State} {k : Byte} (h : 7 ≤ k.toNat) :
    exec (.bst k) s = .next (raiseFault s .invalidCombo) := by
  rw [exec_eq_finish, handlerResult_of_illegal_operand (i := .bst k) s rfl h, finish_error]

theorem exec_bxc (x : Byte) (s : State) : exec (.bxc x) s = .next
    { s with b := BitVec.ofNat 64 (s.b.toNat ^^^ s.c.toNat), ip := s.ip + 2 } := by
  rw [← xor_eq_ofNat, ← commit_writeResult_b]
  rfl

/-- Settles O29: no literal is refused, and the exclusive or of the zero-extended literal is that of the
naturals. -/
theorem bxlXorsTheLiteralIntoB : Obligations.BxlXorsTheLiteralIntoB := by
  intro s lit
  have hword : tableWord (.bxl lit) = 0x0100 + lit.toNat := by simp [tableWord, opcodeByte, Instr.operand]
  exact ⟨decode_encode_append (.bxl lit) [], hword, exec_bxl lit s⟩

/-- Settles O30: the operand resolves or it does not, and the low three bits are the value modulo 8. -/
theorem bstSetsBToComboModEight : Obligations.BstSetsBToComboModEight := by
  intro s k
  have hword : tableWord (.bst k) = 0x0200 + k.toNat := by simp [tableWord, opcodeByte, Instr.operand]
  refine ⟨decode_encode_append (.bst k) [], hword, fun h6 => ?_, exec_bst_of_invalid⟩
  obtain ⟨v, hc⟩ := combo_of_valid (s := s) h6
  exact ⟨v, hc, exec_bst_of_combo hc⟩

/-- Settles O31: the operand byte plays no part in the value, but without it no pair is available. -/
theorem bxcXorsCIntoB : Obligations.BxcXorsCIntoB := by
  intro s x
  have hword : tableWord (.bxc x) = 0x0400 + x.toNat := by simp [tableWord, opcodeByte, Instr.operand]
  exact ⟨decode_encode_append (.bxc x) [], hword, exec_bxc x s, fun hr _ hn =>
    step_of_unavailable hr (by omega)⟩

end Sys2Proof.Machine
end

section
/-! The jump JNZ (43_control.md R77 to R79): the spec's three branches of the next `ip`, and the step after a
taken jump. -/

namespace Sys2Proof.Machine

/-! ### The next `ip` (R77) -/

/-- The two falls through are one branch: A is zero, or the self-jump guard holds (R78). -/
theorem jumpIp_eq (s : State) (lit : Byte) : jumpIp s lit =
    if s.a = 0 ∨ lit.toNat = s.ip then .ok (s.ip + 2)
    else if lit.toNat % 2 = 1 ∧ s.policies.oddTarget = .fault then .error .misalignedTarget
    else .ok lit.toNat := by
  simp only [jumpIp, aIsZero, beq_iff_eq, literal_toNat, nextPair, ite_or]

theorem exec_jnz_of_jumpIp_ok {s : State} {lit : Byte} {target : Nat} (hj : jumpIp s lit = .ok target) :
    exec (.jnz lit) s = .next { s with ip := target } := by
  have hh : handlerResult (.jnz lit) s = .ok { wr := none, nextIp := target, em := none } :=
    congrArg (Except.map _) hj
  rw [exec_eq_finish, hh]
  rfl

theorem exec_jnz_of_jumpIp_error {s : State} {lit : Byte} {r : FaultReason} (hj : jumpIp s lit = .error r) :
    exec (.jnz lit) s = .next (raiseFault s r) := by
  have hh : handlerResult (.jnz lit) s = .error r := congrArg (Except.map _) hj
  rw [exec_eq_finish, hh, finish_error]

theorem exec_jnz_of_fallThrough {s : State} {lit : Byte} (h : s.a = 0 ∨ lit.toNat = s.ip) :
    exec (.jnz lit) s = .next { s with ip := s.ip + 2 } :=
  exec_jnz_of_jumpIp_ok ((jumpIp_eq s lit).trans (if_pos h))

theorem exec_jnz_of_taken {s : State} {lit : Byte} (ha : s.a ≠ 0) (hi : lit.toNat ≠ s.ip)
    (hp : lit.toNat % 2 = 0 ∨ s.policies.oddTarget = .execute) :
    exec (.jnz lit) s = .next { s with ip := lit.toNat } := by
  have hallowed : ¬ (lit.toNat % 2 = 1 ∧ s.policies.oddTarget = .fault) := by
    rintro ⟨hodd, hfault⟩
    rcases hp with heven | hexec
    · omega
    · rw [hfault] at hexec; cases hexec
  apply exec_jnz_of_jumpIp_ok
  rw [jumpIp_eq, if_neg (not_or.2 ⟨ha, hi⟩), if_neg hallowed]

theorem exec_jnz_of_misaligned {s : State} {lit : Byte} (ha : s.a ≠ 0) (hi : lit.toNat ≠ s.ip)
    (hodd : lit.toNat % 2 = 1) (hfault : s.policies.oddTarget = .fault) :
    exec (.jnz lit) s = .next (raiseFault s .misalignedTarget) := by
  apply exec_jnz_of_jumpIp_error
  rw [jumpIp_eq, if_neg (not_or.2 ⟨ha, hi⟩), if_pos ⟨hodd, hfault⟩]

/-! ### The obligations (R77, R79) -/

/-- Settles O32: the branches of R77; past the end the step after the jump finds no pair. -/
theorem jnzJumpsIfAIsNotZero : Obligations.JnzJumpsIfAIsNotZero := by
  intro s lit
  have hword : tableWord (.jnz lit) = 0x0300 + lit.toNat := by simp [tableWord, opcodeByte, Instr.operand]
  refine ⟨decode_encode_append (.jnz lit) [], hword, fun ha => exec_jnz_of_fallThrough (.inl ha),
    fun hi => exec_jnz_of_fallThrough (.inr hi), fun ha hi hp => ⟨exec_jnz_of_taken ha hi hp, ?_⟩,
    exec_jnz_of_misaligned⟩
  intro hr hend
  exact step_of_unavailable (s := { s with ip := lit.toNat }) hr hend

/-- Settles O33: the policy alone decides a taken odd jump, and a jump leaves the store, so the next step
fetches the bytes that stand at the odd index. -/
theorem oddTargetsFollowThePolicy : Obligations.OddTargetsFollowThePolicy := by
  intro s lit hodd
  refine ⟨fun ha hi => exec_jnz_of_misaligned ha hi hodd,
    fun ha hi hexec => ⟨exec_jnz_of_taken ha hi (.inr hexec), ?_⟩, exec_jnz_of_fallThrough⟩
  intro opcode operand i hr h1 h2 hdec
  obtain ⟨rfl, rfl⟩ := decodePair_eq_ok.1 hdec
  exact step_of_pair_encode (s := { s with ip := lit.toNat }) hr h1 h2

end Sys2Proof.Machine
end

section
/-! The output instruction OUT (44_output.md R80, R81): the value it emits, and the output ports of that step. -/

namespace Sys2Proof.Machine

theorem low3_eq_ofNat (v : Word) : low3 v = BitVec.ofNat 3 (v.toNat % 8) := by
  rw [← low3_toNat, BitVec.ofNat_toNat, BitVec.setWidth_eq]

/-! ### The output ports (10_state.md R28) -/

theorem outValid_of_trace {s t : State} {em : Option OutVal} (h : t.trace = appendOut s.trace em) :
    (portsAfter s t).outValid = em.isSome := congrArg Option.isSome (appended_of_trace h)

theorem outValue_of_trace {s t : State} {em : Option OutVal} (h : t.trace = appendOut s.trace em) :
    (portsAfter s t).outValue = em.getD 0 := congrArg (Option.getD · 0) (appended_of_trace h)

/-! ### One instruction (R80) -/

theorem exec_out_of_combo {s : State} {k : Byte} {v : Word} (hc : combo s k = .ok v) :
    exec (.out k) s = .next
      { s with trace := s.trace ++ [BitVec.ofNat 3 (v.toNat % 8)], ip := s.ip + 2 } := by
  have hh : handlerResult (.out k) s = .ok { wr := none, nextIp := s.ip + 2, em := some (low3 v) } :=
    congrArg (Except.map _) hc
  rw [exec_eq_finish, hh, low3_eq_ofNat]
  rfl

theorem exec_out_of_invalid {s : State} {k : Byte} (h : 7 ≤ k.toNat) :
    exec (.out k) s = .next (raiseFault s .invalidCombo) := by
  rw [exec_eq_finish, handlerResult_of_illegal_operand (i := .out k) s rfl h, finish_error]

/-- Settles O34: the operand resolves and its low three bits are appended, or the fault leaves the trace; the
ports show just that, and `out_valid` rests on a committed OUT for every step. -/
theorem outEmitsComboModEight : Obligations.OutEmitsComboModEight := by
  intro s k
  have hword : tableWord (.out k) = 0x0500 + k.toNat := by simp [tableWord, opcodeByte, Instr.operand]
  refine ⟨decode_encode_append (.out k) [], hword, fun h6 => ?_, fun h7 => ?_, fun u t hstep hvalid => ?_⟩
  · obtain ⟨v, hc⟩ := combo_of_valid (s := s) h6
    have hport : (BitVec.ofNat 3 (v.toNat % 8)).toNat = v.toNat % 8 := by
      rw [← low3_eq_ofNat, low3_toNat]
    refine ⟨v, _, hc, exec_out_of_combo hc, rfl, outValid_of_trace (em := some _) rfl, ?_⟩
    rw [outValue_of_trace (em := some _) rfl]
    exact hport
  · exact ⟨_, exec_out_of_invalid h7, rfl, outValid_of_trace (em := none) rfl⟩
  · obtain ⟨hiff, -⟩ := outputPortsShowTheStep u t hstep
    obtain ⟨hu, ht, -, hopcode⟩ := hiff.1 hvalid
    exact ⟨hu, ht, hopcode⟩

end Sys2Proof.Machine
end

section
/-! The invalid-program fault (60_exceptions.md R83 to R85): what a faulting step writes, why it faults, and
what the ports show of it; and the requests of the host (R95). -/

namespace Sys2Proof.Machine

/-! ### The faulting step (R84) -/

/-- A step that ends Faulted has taken the fault, over the router's reject or over a handler's error. -/
theorem StepEnd.raiseFault_of_faulted {s t : State} (h : StepEnd s t) (hr : s.status = .running)
    (ht : t.status = .faulted) :
    ∃ r, t = raiseFault s r ∧ (8 ≤ (memByte s.mem s.ip).toNat ∨ ∃ i, memByte s.mem s.ip = opcodeByte i ∧
      memByte s.mem (s.ip + 1) = i.operand ∧ handlerResult i s = .error r) := by
  cases h with
  | stopped hs => exact absurd hr hs
  | halted _ _ => cases ht
  | invalidOpcode _ _ h8 => exact ⟨_, rfl, .inl h8⟩
  | handlerFault _ _ ho hk hh => exact ⟨_, rfl, .inr ⟨_, ho, hk, hh⟩⟩
  | committed _ _ _ _ _ =>
    rw [commit_status, hr] at ht
    cases ht

/-- Settles O14: the only end of a step that is Faulted is the taking of the fault, one update of the state. -/
theorem aFaultingStepCommitsNothing : Obligations.AFaultingStepCommitsNothing := by
  intro s t hr h ht
  obtain ⟨reason, rfl, -⟩ := (step_eq_next_iff.1 h).raiseFault_of_faulted hr ht
  exact ⟨reason, rfl⟩

/-! ### The order of the checks (R85) -/

/-- The step of a fetched pair with an opcode byte below 8 is an instruction's. -/
theorem step_of_validOpcode {s : State} {opcode operand : Byte} (hr : s.status = .running)
    (h1 : memRead s s.ip = .ok opcode) (h2 : memRead s (s.ip + 1) = .ok operand) (hlt : opcode.toNat < 8) :
    ∃ i, opcode = opcodeByte i ∧ operand = i.operand ∧ step s = exec i s := by
  rcases decodePair_cases opcode operand with ⟨i, hi⟩ | ⟨h8, -⟩
  · obtain ⟨rfl, rfl⟩ := decodePair_eq_ok.1 hi
    exact ⟨i, rfl, rfl, step_of_pair_encode hr h1 h2⟩
  · omega

theorem mode_eq_combo_iff (i : Instr) : i.mode = .combo ↔ (opcodeByte i).toNat ∈ [0, 2, 5, 6, 7] := by
  cases i <;> simp [Instr.mode, opcodeByte]

theorem exec_of_illegal_operand {i : Instr} (s : State) (hm : i.mode = .combo) (h7 : 7 ≤ i.operand.toNat) :
    exec i s = .next (raiseFault s .invalidCombo) := by
  rw [exec_eq_finish, handlerResult_of_illegal_operand s hm h7, finish_error]

/-- The opcodes 0, 6 and 7 are the three divisions. -/
theorem exec_eq_execDivision {i : Instr} (s : State) (h : (opcodeByte i).toNat ∈ [0, 6, 7]) :
    ∃ r, exec i s = execDivision r i.operand s := by
  cases i with
  | adv k => exact ⟨.a, exec_adv k s⟩
  | bdv k => exact ⟨.b, exec_bdv k s⟩
  | cdv k => exact ⟨.c, exec_cdv k s⟩
  | _ => simp [opcodeByte] at h

/-- Settles O15: the router rejects before a handler runs, the other checks are the handlers' own, and a
faulting step has met the router's check or a cause of its handler's error. -/
theorem faultChecksAreMadeInOrder : Obligations.FaultChecksAreMadeInOrder := by
  intro s opcode operand hr
  refine ⟨fun hu => ⟨haltStep s, step_of_unavailable hr hu, rfl, rfl⟩, fun h1 h2 => ?_⟩
  have hvalid := step_of_validOpcode hr h1 h2
  obtain ⟨-, ho, hk, hstep⟩ := step_of_pair hr h1 h2
  obtain ⟨-, -, -, hjnz, -⟩ := theRouterSelectsByOpcodeByte s opcode operand hr h1 h2
  refine ⟨fun h8 => ?_, fun hop h7 => ?_, fun v hop hc hp h64 => ?_, fun hop ha hip hodd hp => ?_,
    fun t h ht => ?_⟩
  · rw [hstep, dispatchPair_of_invalidOpcode s operand h8]
  · obtain ⟨i, rfl, rfl, hrun⟩ := hvalid ((by decide : ∀ n ∈ [0, 2, 5, 6, 7], n < 8) _ hop)
    rw [hrun, exec_of_illegal_operand s ((mode_eq_combo_iff i).2 hop) h7]
  · obtain ⟨i, rfl, rfl, hrun⟩ := hvalid ((by decide : ∀ n ∈ [0, 6, 7], n < 8) _ hop)
    obtain ⟨r, hdiv⟩ := exec_eq_execDivision s hop
    rw [hrun, hdiv, execDivision_of_largeShift r hc h64 hp]
  · rw [hjnz hop, exec_jnz_of_misaligned ha hip hodd hp]
  · obtain ⟨r, -, hcause⟩ := (step_eq_next_iff.1 h).raiseFault_of_faulted hr ht
    rw [ho, hk] at hcause
    rcases hcause with h8 | ⟨i, rfl, rfl, hh⟩
    · exact .inl h8
    · rcases handlerResult_error hh with ⟨hm, h7, -⟩ | ⟨hop, -, hshift⟩ | ⟨hop, -, htarget⟩
      · exact .inr (.inl ⟨(mode_eq_combo_iff i).1 hm, h7⟩)
      · exact .inr (.inr (.inl ⟨hop, hshift⟩))
      · exact .inr (.inr (.inr ⟨hop, htarget⟩))

/-! ### The fault ports (R83, 10_state.md R28) -/

/-- The fault ports are read from the fault record after the step alone. -/
theorem faultPorts_of_fault {t : State} {f : Option FaultRecord} (s : State) (h : t.fault = f) :
    (portsAfter s t).faultReason = faultCode f ∧ (portsAfter s t).faultIp = f.map FaultRecord.ip := by
  subst h
  exact ⟨rfl, rfl⟩

/-- Settles O16: the port's code of each of the five contents of the fault record. -/
theorem faultPortsShowTheRecord : Obligations.FaultPortsShowTheRecord := fun s _ =>
  ⟨faultPorts_of_fault s, fun _ => ⟨faultPorts_of_fault s, faultPorts_of_fault s, faultPorts_of_fault s,
    faultPorts_of_fault s⟩⟩

/-! ### The host's requests (R95) -/

theorem load_status {policies : Policies} {x : LoadArgs} {t : State} (h : load policies x = .ok t) :
    t.status = .running := by
  obtain ⟨-, rfl⟩ := load_eq_ok h
  rfl

/-- A text that loads has parsed, and its loading is that of the arguments it parsed to (R96). -/
theorem loadText_eq_ok {policies : Policies} {text : Text} {t : State} (h : loadText policies text = .ok t) :
    ∃ x, parseText text = .ok x ∧ load policies x = .ok t := by
  rw [loadText] at h
  cases hp : parseText text with
  | error e => rw [hp] at h; cases h
  | ok x => rw [hp] at h; exact ⟨x, rfl, h⟩

/-- The reply to a load that only ever gives a Running machine: that machine, or the load error. -/
theorem loadReply_cases (r : Except LoadError State) (hrun : ∀ t, r = .ok t → t.status = .running) :
    (∃ t, r = .ok t ∧ t.status = .running ∧ loadReply r = .loaded t) ∨
      ∃ e, r = .error e ∧ loadReply r = .loadRefused e := by
  cases r with
  | ok t => exact .inl ⟨t, rfl, hrun t rfl, rfl⟩
  | error e => exact .inr ⟨e, rfl, rfl⟩

/-- Settles O51: the step has a next state, a load of either form gives a Running machine, and between
steps nothing is appended. -/
theorem hostRequestsDoWhatTheTableSays : Obligations.HostRequestsDoWhatTheTableSays := by
  intro s
  obtain ⟨t, ht⟩ := step_total s
  have hstep : serve s .step = .stepped t (portsAfter s t) := congrArg (stepReply s) ht
  refine ⟨rfl, outValid_of_trace (em := none) rfl, outValue_of_trace (em := none) rfl, rfl, ⟨t, ht, hstep⟩,
    fun policies args => loadReply_cases _ fun _ => load_status,
    fun policies text => loadReply_cases _ fun _ h => ?_⟩
  obtain ⟨x, -, hx⟩ := loadText_eq_ok h
  exact load_status hx

end Sys2Proof.Machine
end

section
/-! The program author's duties (70_reset_and_hazards.md R99): a dutiful pair leaves its handler no fault to
raise and no odd place to go, so a dutiful run stays one. And the first step after a load (R98). -/

namespace Sys2Proof.Machine

/-! ### Dutiful pairs (R99) -/

theorem targetEven_iff (i : Instr) :
    targetEven i = true ↔ (opcodeByte i = 3 → i.operand.toNat % 2 = 0) := by
  cases i <;> simp [targetEven, opcodeByte, Instr.operand]

/-- The pairs an author may write are those of the well-formed instructions with an even target. -/
theorem dutifulPair_encode (i : Instr) :
    dutifulPair (opcodeByte i) i.operand = true ↔ i.wellFormed = true ∧ targetEven i = true := by
  rw [dutifulPair, decodePair_encode]
  exact Bool.and_eq_true_iff

/-- The duties are about the Program Store alone. -/
theorem SameStore.authorDuties {s t : State} (h : SameStore s t) (hd : authorDuties s) : authorDuties t := by
  obtain ⟨hm, hn, -⟩ := h
  rw [Machine.authorDuties, hm, hn]
  exact hd

/-- Each cause of a handler's fault is excluded: an illegal operand and an odd target by the author, a large
shift by the policy. -/
theorem handlerResult_ne_error {i : Instr} {s : State} (hw : i.wellFormed = true) (ht : targetEven i = true)
    (hp : s.policies.largeShift = .zero) (r : FaultReason) : handlerResult i s ≠ .error r := by
  intro hh
  rcases handlerResult_error hh with ⟨hm, h7, -⟩ | ⟨-, -, hfault, -⟩ | ⟨hop, -, -, -, hodd, -⟩
  · rw [(wellFormed_eq_false_iff i).2 ⟨hm, h7⟩] at hw
    cases hw
  · rw [hp] at hfault
    cases hfault
  · have := (targetEven_iff i).1 ht hop
    omega

theorem handlerResult_nextIp_even {i : Instr} {s : State} {h : HandlerResult}
    (hh : handlerResult i s = .ok h) (ht : targetEven i = true) (hip : s.ip % 2 = 0) : h.nextIp % 2 = 0 := by
  rcases handlerResult_nextIp hh with e | ⟨lit, rfl, e, -⟩ <;> rw [e]
  · omega
  · exact (targetEven_iff (.jnz lit)).1 ht rfl

/-- The fetch of a sound run finds an instruction that keeps the author's duties. -/
theorem soundRun.fetched_dutiful {s : State} {i : Instr} (hs : soundRun s) (ha : s.ip + 1 < s.size)
    (ho : memByte s.mem s.ip = opcodeByte i) (hk : memByte s.mem (s.ip + 1) = i.operand) :
    i.wellFormed = true ∧ targetEven i = true := by
  obtain ⟨⟨-, -, hpairs⟩, hip, -, -⟩ := hs
  have hpair := hpairs s.ip (by omega) hip
  rw [ho, hk] at hpair
  exact (dutifulPair_encode i).1 hpair

/-- The two faulting ends of a step contradict the duties, and the others keep the run sound. -/
theorem StepEnd.soundRun {s t : State} (h : StepEnd s t) (hs : soundRun s) : soundRun t := by
  have ⟨hd, hip, hp, hf⟩ := hs
  have hdt := h.sameStore.authorDuties hd
  cases h with
  | stopped _ => exact hs
  | halted _ _ => exact ⟨hdt, hip, hp, by simp⟩
  | invalidOpcode _ ha h8 =>
    obtain ⟨-, hbytes, -⟩ := hd
    have := hbytes s.ip (by omega)
    omega
  | handlerFault _ ha ho hk hh =>
    obtain ⟨hw, ht⟩ := hs.fetched_dutiful ha ho hk
    exact absurd hh (handlerResult_ne_error hw ht hp _)
  | committed _ ha ho hk hh =>
    obtain ⟨-, ht⟩ := hs.fetched_dutiful ha ho hk
    exact ⟨hdt, handlerResult_nextIp_even hh ht hip, by rw [commit_policies, hp], by rwa [commit_status]⟩

/-- Settles O22: a step has a next state, and each end of a step keeps a sound run or cannot be reached from
one. -/
theorem aDutifulProgramNeverFaults : Obligations.ADutifulProgramNeverFaults := by
  intro s hs
  obtain ⟨t, ht⟩ := step_total s
  exact ⟨t, ht, (step_eq_next_iff.1 ht).soundRun hs⟩

/-! ### The first step after a load (R98) -/

/-- The first step hands the first two loaded values to the router. -/
theorem step_loadedState (policies : Policies) {x : LoadArgs} {o k : Nat} {rest : List Nat}
    (hx : x.program = o :: k :: rest) :
    step (loadedState policies x) =
      dispatchPair (loadedState policies x) (BitVec.ofNat 8 o) (BitVec.ofNat 8 k) := by
  have hlen : 1 < x.program.length := by simp [hx]
  have ho := memByte_loadedState policies x (Nat.zero_lt_of_lt hlen)
  have hk := memByte_loadedState policies x hlen
  simp only [hx, List.getElem_cons_zero, List.getElem_cons_succ] at ho hk
  rw [← ho, ← hk]
  exact step_of_available rfl hlen

/-- Settles O5: the loaded instance stands Running at index 0, and its range check leaves an opcode value of
8 or more what it is as a byte. -/
theorem firstStepRunsThePairAtIndexZero : Obligations.FirstStepRunsThePairAtIndexZero := by
  intro policies x s h
  obtain ⟨hin, rfl⟩ := load_eq_ok h
  refine ⟨fun hshort => step_of_unavailable rfl (Nat.le_of_lt_succ hshort), fun o k rest i hx hdec => ?_,
    fun o k rest hx h8 => ?_⟩
  · rw [step_loadedState policies hx, dispatchPair, hdec]
  · obtain ⟨hbytes, -⟩ := (inRange_iff x).1 hin
    have hlt : o < 256 := hbytes o (by simp [hx])
    have hbyte : 8 ≤ (BitVec.ofNat 8 o).toNat := by
      rw [BitVec.toNat_ofNat, Nat.mod_eq_of_lt hlt]
      exact h8
    rw [step_loadedState policies hx, dispatchPair_of_invalidOpcode _ _ hbyte]
    rfl

end Sys2Proof.Machine
end

section
/-! Reset (70_reset_and_hazards.md R96; notes/assumptions/4.md, 5.md): State.reset is a loaded instance, so it
meets the machine's invariant, and with no pair to fetch it halts at its first step. -/

namespace Sys2Proof.Machine

/-- The state after reset is the loaded instance of nothing. -/
theorem reset_eq_loadedState :
    State.reset = loadedState defaultPolicies { program := [], a0 := 0, b0 := 0, c0 := 0 } := rfl

/-- Settles O2: the load of nothing is in range; the empty store has no pair, so the first step halts, and a
halted state stays. -/
theorem fromResetNothingRunsBeforeALoad : Obligations.FromResetNothingRunsBeforeALoad := by
  refine ⟨load_of_inRange (by decide), fun k => steps_succ_eq_next.2 ⟨haltStep State.reset, ?_, ?_⟩⟩
  · exact step_of_unavailable rfl (Nat.zero_le _)
  · exact steps_of_stopped (by simp) k

/-- Settles O3: every loaded instance meets the invariant, and State.reset is one. -/
theorem resetMeetsTheInvariant : Obligations.ResetMeetsTheInvariant := by
  rw [Obligations.ResetMeetsTheInvariant, reset_eq_loadedState]
  exact loadedState_invariant _ _

end Sys2Proof.Machine
end

section
/-! Table words as stored pairs (30_encoding.md R43, R50; notes/assumptions/5.md, 12.md): the word of each row
decodes, and a decodable word placed at `ip` is fetched as the two bytes of its instruction. -/

namespace Sys2Proof

/-- A table word decodes to an instruction exactly when its bytes are the instruction's. -/
theorem decodeTableWord_eq_some_iff {w : Nat} {i : Instr} :
    decodeTableWord 16 w = some i ↔ tableWordBytes 16 w = encode i := by
  have hrest : decode (tableWordBytes 16 w) = .ok (i, []) ↔ tableWordBytes 16 w = encode i := by
    rw [decode_eq_ok_iff, List.append_nil]
  rw [← hrest, decodeTableWord, tableWordBytes, decode_cons_cons]
  cases decodePair (BitVec.ofNat 8 (w % 2 ^ 16 / 256)) (BitVec.ofNat 8 (w % 2 ^ 16)) with
  | ok j => simp [Except.map]
  | error e => simp [Except.map]

/-- Settles O43: each of the eight words is the table word of its instruction, and the ninth has the opcode
byte 9. -/
theorem writtenOutWordsDecode : Obligations.WrittenOutWordsDecode :=
  ⟨decodeTableWord_tableWord (.adv 1), decodeTableWord_tableWord (.bxl 200),
    decodeTableWord_tableWord (.bst 4), decodeTableWord_tableWord (.jnz 0),
    decodeTableWord_tableWord (.bxc 255), decodeTableWord_tableWord (.out 5),
    decodeTableWord_tableWord (.bdv 6), decodeTableWord_tableWord (.cdv 5),
    decodeTableWord_eq_none (by decide) (by decide)⟩

end Sys2Proof

namespace Sys2Proof.Machine

/-! ### A placed pair (20_memory.md R30) -/

theorem withFetchWord_of_decodes {w : Nat} {i : Instr} (s : State) (h : decodeTableWord 16 w = some i) :
    s.withFetchWord 16 w = placePair s (opcodeByte i) i.operand := by
  rw [State.withFetchWord, placeWord, decodeTableWord_eq_some_iff.1 h, encode]

/-- Both bytes of a placed pair are inside the store. -/
theorem placePair_available (s : State) (x y : Byte) :
    (placePair s x y).ip + 1 < (placePair s x y).size := by
  rw [placePair_ip, placePair_size]
  omega

/-- The write of the operand, the later one, leaves the opcode as it was written. -/
theorem memByte_placePair_opcode {s : State} (x y : Byte) (h : storeWf s) :
    memByte (placePair s x y).mem s.ip = x := by
  obtain ⟨hm, -⟩ := h
  rw [placePair_mem, memByte_memWrite _ _ (memWrite_wf _ _ hm), if_neg (Nat.succ_ne_self _).symm,
    memByte_memWrite _ _ hm, if_pos rfl]

theorem memByte_placePair_operand {s : State} (x y : Byte) (h : storeWf s) :
    memByte (placePair s x y).mem (s.ip + 1) = y := by
  obtain ⟨hm, -⟩ := h
  rw [placePair_mem, memByte_memWrite _ _ (memWrite_wf _ _ hm), if_pos rfl]

/-- Settles O46: the word's bytes are the instruction's, and the pair placed at `ip` is the pair fetched. -/
theorem aPlacedInstructionIsTheNextToRun : Obligations.APlacedInstructionIsTheNextToRun := by
  intro s w i hs hw
  rw [withFetchWord_of_decodes s hw]
  refine ⟨?_, placePair_storeWf _ _ hs⟩
  rw [exec_eq_finish]
  exact step_of_instr rfl (placePair_available s _ _) (memByte_placePair_opcode _ _ hs)
    (memByte_placePair_operand _ _ hs)

end Sys2Proof.Machine
end
